-- ==== Sys2Proof/Word.lean ====
section
/-! DEFINITION. The word, the byte and the register number (00_scope.md R5, 10_state.md R8). -/

namespace Sys2Proof

/-- An unsigned 16-bit word: "the universal unit of memory, register, and stack storage" (R5). -/
abbrev Word := BitVec 16

/-- What one `in` or `out` moves (R5, `IO_W`). -/
abbrev Byte := BitVec 8

/-- The number of a general register, 0 to 7 (R8). -/
abbrev RegIdx := Fin 8

end Sys2Proof
end

