-- ==== Sys2Proof/Config.lean ====
section
/-! DEFINITION. The parameters of the hardware (00_scope.md R5) and the values the spec leaves open. -/

namespace Sys2Proof.Config

/-- R5 `MEM_WORDS`, R19: the word store has exactly 32,768 words. -/
def memWords : Nat := 32768

/-- R5 `MAXLEN`: no instruction is longer than 4 words. -/
def maxLen : Nat := 4

/-- The register-index output of the decoder block for an operand word that is an immediate (30_encoding.md R58).
The spec gives none: a free value (log 8). -/
opaque indexOfImmediate : Word → BitVec 3

/-- The immediate output of the decoder block for an operand word that is a register reference (30_encoding.md R58).
The spec gives none: a free value (log 8). -/
opaque immediateOfRegister : Word → Word

/-- `d_err_info` of the decoder block while `d_valid` = 1, for the words of the decoded instruction and its next address (30_encoding.md R58). R58 gives the
output for a failure alone: a free value (log 8). -/
opaque errInfoOfSuccess : List Word → Word → Word

end Sys2Proof.Config
end

