-- ==== Sys2Proof/Syntax.lean ====
section
/-! DEFINITION. The 22 instructions (30_encoding.md R54) and their operands (R51, R52). -/

namespace Sys2Proof

/-- A Source operand: `Imm(n)` or `Reg(i)` (R51). -/
inductive Src where
  | imm (n : Word)
  | reg (i : RegIdx)
  deriving DecidableEq, Repr

/-- One constructor per row of the opcode table, in the order of R54. A Destination operand is a register number (R52).
Operands stand in encoding order a, b, c. -/
inductive Instr where
  /-- opcode 0, R64 -/
  | halt
  /-- opcode 1, R66 -/
  | set (a : RegIdx) (b : Src)
  /-- opcode 2, R67 -/
  | push (a : Src)
  /-- opcode 3, R68 -/
  | pop (a : RegIdx)
  /-- opcode 4, R69 -/
  | eq (a : RegIdx) (b c : Src)
  /-- opcode 5, R70 -/
  | gt (a : RegIdx) (b c : Src)
  /-- opcode 6, R72 -/
  | jmp (a : Src)
  /-- opcode 7, R73: condition, then target -/
  | jt (a b : Src)
  /-- opcode 8, R74: condition, then target -/
  | jf (a b : Src)
  /-- opcode 9, R79 -/
  | add (a : RegIdx) (b c : Src)
  /-- opcode 10, R80 -/
  | mult (a : RegIdx) (b c : Src)
  /-- opcode 11, R81: dividend, then divisor -/
  | mod (a : RegIdx) (b c : Src)
  /-- opcode 12, R82 -/
  | and (a : RegIdx) (b c : Src)
  /-- opcode 13, R83 -/
  | or (a : RegIdx) (b c : Src)
  /-- opcode 14, R84 -/
  | not (a : RegIdx) (b : Src)
  /-- opcode 15, R86: register, then address -/
  | rmem (a : RegIdx) (b : Src)
  /-- opcode 16, R87: address, then value -/
  | wmem (a b : Src)
  /-- opcode 17, R75 -/
  | call (a : Src)
  /-- opcode 18, R76 -/
  | ret
  /-- opcode 19, R91 -/
  | out (a : Src)
  /-- opcode 20, R92; the table's `in` -/
  | inp (a : RegIdx)
  /-- opcode 21, R65 -/
  | noop
  deriving DecidableEq, Repr

end Sys2Proof
end

