-- ==== Sys2Proof/WellFormed.lean ====
section
/-! DEFINITION. Which instructions an encoding exists for: an immediate is 0 to 32767 (30_encoding.md R50, R53). The register numbers need
no check, since their type holds 0 to 7 only. -/

namespace Sys2Proof

/-- R50: a literal word has bit 15 clear. -/
def Src.wf : Src → Bool
  | .imm n => decide (n.toNat < 32768)
  | .reg _ => true

/-- The Source operands of an instruction, in encoding order (R54). -/
def Instr.sources : Instr → List Src
  | .halt => []
  | .set _ b => [b]
  | .push a => [a]
  | .pop _ => []
  | .eq _ b c => [b, c]
  | .gt _ b c => [b, c]
  | .jmp a => [a]
  | .jt a b => [a, b]
  | .jf a b => [a, b]
  | .add _ b c => [b, c]
  | .mult _ b c => [b, c]
  | .mod _ b c => [b, c]
  | .and _ b c => [b, c]
  | .or _ b c => [b, c]
  | .not _ b => [b]
  | .rmem _ b => [b]
  | .wmem a b => [a, b]
  | .call a => [a]
  | .ret => []
  | .out a => [a]
  | .inp _ => []
  | .noop => []

/-- The Destination operand, for the twelve instructions that have one (R59). -/
def Instr.destination : Instr → Option RegIdx
  | .halt => none
  | .set a _ => some a
  | .push _ => none
  | .pop a => some a
  | .eq a _ _ => some a
  | .gt a _ _ => some a
  | .jmp _ => none
  | .jt _ _ => none
  | .jf _ _ => none
  | .add a _ _ => some a
  | .mult a _ _ => some a
  | .mod a _ _ => some a
  | .and a _ _ => some a
  | .or a _ _ => some a
  | .not a _ => some a
  | .rmem a _ => some a
  | .wmem _ _ => none
  | .call _ => none
  | .ret => none
  | .out _ => none
  | .inp a => some a
  | .noop => none

/-- Every immediate of the instruction has an encoding. -/
def Instr.wf (i : Instr) : Bool := i.sources.all Src.wf

end Sys2Proof
end

