-- ==== Sys2Proof/Decode.lean ====
section
/-! DEFINITION. The decoder (30_encoding.md R48 to R57) and, after it, the encoder (R59). -/

namespace Sys2Proof

/-- The named decode failures (R55, 60_exceptions.md R94). -/
inductive DecodeFailure where
  /-- the pc, or the address of an operand word, is 32768 or more -/
  | invalidIp (address : Word)
  /-- the opcode word is 22 or more -/
  | illegalInstruction (word : Word)
  /-- a Source operand word is 32776 or more -/
  | invalidSrcOperand (word : Word)
  /-- a Destination operand word is not 32768 to 32775 -/
  | invalidDstOperand (word : Word)
  deriving DecidableEq, Repr

/-- R50: bits 14 to 3 of a register reference are zero. -/
def nonIndexBits (w : Word) : BitVec 12 := w.extractLsb' 3 12

/-- R50, R53: the register index is `w[2:0]`. -/
def indexBits (w : Word) : RegIdx := Fin.ofNat 8 (w.extractLsb' 0 3).toNat

/-- R51. -/
def decodeSrc (w : Word) : Except DecodeFailure Src :=
  if w.getLsbD 15 = false then .ok (.imm w)
  else if nonIndexBits w = 0 then .ok (.reg (indexBits w))
  else .error (.invalidSrcOperand w)

/-- R52: a literal is illegal in a Destination position. -/
def decodeDst (w : Word) : Except DecodeFailure RegIdx :=
  if w.getLsbD 15 = true ∧ nonIndexBits w = 0 then .ok (indexBits w)
  else .error (.invalidDstOperand w)

/-- A row of R54: the kinds of the operands, and the instruction they make. -/
inductive Row where
  | none (i : Instr)
  | s (mk : Src → Instr)
  | d (mk : RegIdx → Instr)
  | ss (mk : Src → Src → Instr)
  | ds (mk : RegIdx → Src → Instr)
  | dss (mk : RegIdx → Src → Src → Instr)

/-- The opcode map of R54: the row of opcode n stands at place n. -/
def opcodeMap : List Row :=
  [ .none .halt, .ds .set, .s .push, .d .pop, .dss .eq, .dss .gt, .s .jmp, .ss .jt, .ss .jf, .dss .add, .dss .mult ] ++
  [ .dss .mod, .dss .and, .dss .or, .ds .not, .ds .rmem, .ss .wmem, .s .call, .none .ret, .s .out, .d .inp, .none .noop ]

/-- What decoding gives: an instruction with its next address, or one named failure. -/
abbrev Decoded := Except DecodeFailure (Instr × Word)

/-- The word at address `q`. The words handed over end where the store ends, so that none being left means `q >= 32768` (R55). -/
def nextWord (q : Nat) (ws : List Word) (k : Word → List Word → Decoded) : Decoded :=
  match ws with
  | [] => .error (.invalidIp (BitVec.ofNat 16 q))
  | w :: rest => k w rest

/-- The Source operand at address `q` (R55): its bound first, then its word. -/
def nextSrc (q : Nat) (ws : List Word) (k : Src → List Word → Decoded) : Decoded :=
  nextWord q ws fun w rest =>
    match decodeSrc w with
    | .error e => .error e
    | .ok o => k o rest

/-- The Destination operand at address `q` (R55). -/
def nextDst (q : Nat) (ws : List Word) (k : RegIdx → List Word → Decoded) : Decoded :=
  nextWord q ws fun w rest =>
    match decodeDst w with
    | .error e => .error e
    | .ok d => k d rest

/-- The instruction and the address after it (R56). -/
def decoded (i : Instr) (q : Nat) : Decoded := .ok (i, BitVec.ofNat 16 q)

/-- The operand words of a row, in the order a, b, c (R55), the first at address `q`. -/
def decodeOperands (q : Nat) (ws : List Word) : Row → Decoded
  | .none i => decoded i q
  | .s mk => nextSrc q ws fun a _ => decoded (mk a) (q + 1)
  | .d mk => nextDst q ws fun a _ => decoded (mk a) (q + 1)
  | .ss mk => nextSrc q ws fun a ws1 => nextSrc (q + 1) ws1 fun b _ => decoded (mk a b) (q + 2)
  | .ds mk => nextDst q ws fun a ws1 => nextSrc (q + 1) ws1 fun b _ => decoded (mk a b) (q + 2)
  | .dss mk =>
    nextDst q ws fun a ws1 => nextSrc (q + 1) ws1 fun b ws2 => nextSrc (q + 2) ws2 fun c _ => decoded (mk a b c) (q + 3)

/-- The decoder of R55: `ws` are the words of the store from address `p` on, up to the end of the store. -/
def decode (p : Word) (ws : List Word) : Decoded :=
  nextWord p.toNat ws fun w0 rest =>
    match opcodeMap[w0.toNat]? with
    | none => .error (.illegalInstruction w0)
    | some row => decodeOperands (p.toNat + 1) rest row

/-- The words a number holds, the first in its low bits (opcode_table.json's numbering of bits). -/
def tableWords (nbits w : Nat) : List Word :=
  let v := w % 2 ^ nbits
  [BitVec.ofNat 16 v, BitVec.ofNat 16 (v / 2 ^ 16), BitVec.ofNat 16 (v / 2 ^ 32), BitVec.ofNat 16 (v / 2 ^ 48)]

/-- The instruction the decoder reads from a word numbered as opcode_table.json numbers it. -/
def decodeTableWord (nbits w : Nat) : Option Instr :=
  match decode 0 (tableWords nbits w) with
  | .ok (i, _) => some i
  | .error _ => none

/-! The encoder. -/

/-- R54: the opcode of an instruction. -/
def Instr.opcode : Instr → Nat
  | .halt => 0
  | .set _ _ => 1
  | .push _ => 2
  | .pop _ => 3
  | .eq _ _ _ => 4
  | .gt _ _ _ => 5
  | .jmp _ => 6
  | .jt _ _ => 7
  | .jf _ _ => 8
  | .add _ _ _ => 9
  | .mult _ _ _ => 10
  | .mod _ _ _ => 11
  | .and _ _ _ => 12
  | .or _ _ _ => 13
  | .not _ _ => 14
  | .rmem _ _ => 15
  | .wmem _ _ => 16
  | .call _ => 17
  | .ret => 18
  | .out _ => 19
  | .inp _ => 20
  | .noop => 21

/-- R61: the number of words of an instruction, fixed by its opcode. -/
def Instr.length : Instr → Nat
  | .halt => 1
  | .set _ _ => 3
  | .push _ => 2
  | .pop _ => 2
  | .eq _ _ _ => 4
  | .gt _ _ _ => 4
  | .jmp _ => 2
  | .jt _ _ => 3
  | .jf _ _ => 3
  | .add _ _ _ => 4
  | .mult _ _ _ => 4
  | .mod _ _ _ => 4
  | .and _ _ _ => 4
  | .or _ _ _ => 4
  | .not _ _ => 3
  | .rmem _ _ => 3
  | .wmem _ _ => 3
  | .call _ => 2
  | .ret => 1
  | .out _ => 2
  | .inp _ => 2
  | .noop => 1

/-- R59: `Imm(n)` encodes as `n`, `Reg(i)` as `0x8000 + i`. -/
def encodeSrc : Src → Word
  | .imm n => n
  | .reg i => BitVec.ofNat 16 (0x8000 + i.val)

/-- The operands of an instruction in encoding order, a Destination as the register it names (R54). -/
def Instr.operands (i : Instr) : List Src :=
  match i.destination with
  | some d => .reg d :: i.sources
  | none => i.sources

/-- R59: the opcode word, then each operand word. -/
def encode (i : Instr) : List Word := BitVec.ofNat 16 i.opcode :: i.operands.map encodeSrc

end Sys2Proof
end

