-- ==== Sys2Proof/Machine/State.lean ====
section
/-! DEFINITION. The state of the core (10_state.md R7), the two ports' environment, and the state after reset (70_reset_and_hazards.md R109). -/

namespace Sys2Proof.Machine

/-- No step of this machine ends in a fault. A failure of the spec is a result of the step that leaves a next state with the fault report
written (R21, R22, R98, R99), so the type has no constructor: nobody raises one (log 2). -/
inductive Fault where
  deriving DecidableEq, Repr

/-- Why a step may give no meaning. -/
inductive Refusal where
  /-- raised by exec alone, for an instruction it has no meaning for yet; safe. No arm of exec raises it now. -/
  | notModelled (mnemonic : String)
  deriving DecidableEq, Repr

/-- The failures of 60_exceptions.md R94. -/
inductive Failure where
  /-- codes 1 to 4, raised by the decoder -/
  | decode (e : DecodeFailure)
  /-- code 5, raised by pop on an empty stack -/
  | stackUnderflow
  /-- code 6, raised by rmem and wmem -/
  | invalidAddress (address : Word)
  /-- code 7, raised by out -/
  | invalidIOWord (word : Word)
  /-- code 8, raised by in and out -/
  | ioError
  /-- code 9, raised by mod -/
  | modByZero
  /-- code 10, raised by push and call in a finite build -/
  | stackOverflow
  deriving DecidableEq, Repr

/-- R17, R18. -/
inductive Status where
  | running
  | halted
  deriving DecidableEq, Repr

/-- The fault report of R17. -/
structure FaultReport where
  /-- `fault_valid`: the last step ended with a failure -/
  valid : Bool
  /-- `fault_code` -/
  code : BitVec 4
  /-- `fault_info`: the word or address the failure carries -/
  info : Word
  /-- `fault_pc`: pc of the step that failed -/
  pc : Word
  /-- `fault_seen`: sticky -/
  seen : Bool
  deriving DecidableEq, Repr

/-- The four outcomes of a step (R21). -/
inductive StepResult where
  | done
  | halt
  | stall
  | fault (code : BitVec 4) (info : Word)
  deriving DecidableEq, Repr

/-- What the input port shows in one cycle (46_io.md R89): no item, a byte, or an error. -/
inductive InSample where
  /-- `in_valid` = 0, `in_error` = 0 -/
  | none
  /-- `in_valid` = 1, `in_error` = 0 -/
  | byte (b : Byte)
  /-- `in_error` = 1; end of input is shown so -/
  | error
  deriving DecidableEq, Repr

/-- How the output port answers an offered byte in one cycle (46_io.md R88). -/
inductive OutSample where
  /-- `out_ready` = 1, `out_error` = 0 -/
  | ready
  /-- `out_ready` = 0, `out_error` = 0 -/
  | notReady
  /-- `out_error` = 1 -/
  | error
  deriving DecidableEq, Repr

/-- The environment of the two ports. It is no state of the core (R7). The spec makes it a parameter of the step (R89), and the model carries it
as data (log 3, log 4, log 5). -/
structure Env where
  /-- what the input port shows at the next samplings, the next one first -/
  inSched : List InSample
  /-- what it shows once `inSched` is used up -/
  inIdle : InSample
  /-- the bytes the core has taken, oldest first -/
  inTaken : List Byte
  /-- how the sink answers the next offers, the next one first -/
  outSched : List OutSample
  /-- how it answers once `outSched` is used up -/
  outIdle : OutSample
  /-- the bytes the sink has taken, oldest first -/
  outGiven : List Byte
  deriving DecidableEq, Repr

/-- The word store as (byte address, byte) pairs in one canonical form: word k of R19 is bytes 2k (bits 7:0) and 2k+1 (bits 15:8), log 1. -/
abbrev Memory := List Host.Cell

/-- What an unlisted byte reads as: the word store is zero-initialised (R19). -/
def Memory.unlisted : Byte := 0

structure State where
  /-- registers r0 to r7 (R8) -/
  regs : Vector Word 8
  /-- the word store M (R19) -/
  mem : Memory
  /-- the operand stack S, top first (R16) -/
  stack : List Word
  /-- the program counter (R12) -/
  pc : Word
  /-- Running or Halted (R17) -/
  status : Status
  /-- the fault report (R17) -/
  report : FaultReport
  /-- STACK_CAP (R5, R6): `none` is unbounded -/
  stackCap : Option Nat
  /-- the ports' environment, the model's own -/
  env : Env
  /-- what the last step returned (R21), the model's own; `none` when no step has been taken since reset -/
  result : Option StepResult
  deriving DecidableEq, Repr

/-- The fault report after reset (R109). -/
def FaultReport.reset : FaultReport := { valid := false, code := 0, info := 0, pc := 0, seen := false }

/-- The environment the model starts with: no byte offered, the sink ready. DESIGN CHOICE (log 3, log 4, log 5). -/
def Env.reset : Env :=
  { inSched := [], inIdle := .none, inTaken := [], outSched := [], outIdle := .ready, outGiven := [] }

/-- R109: the state after reset, with nothing loaded yet (R110). -/
def State.reset : State :=
  { regs := Vector.replicate 8 0
    mem := []
    stack := []
    pc := 0
    status := .running
    report := FaultReport.reset
    stackCap := none
    env := Env.reset
    result := none }

end Sys2Proof.Machine
end

