-- ==== Sys2Proof/Machine/Ops.lean ====
section
/-! DEFINITION. The named operations over memory, registers, stack, ports and fault report. -/

namespace Sys2Proof.Machine

/-- How a meaning or a step ends. -/
abbrev Outcome := Host.Outcome State Fault Refusal

/-! ## Memory -/

/-- The listed addresses rise strictly from `lo` on, lie in the store, and no listed byte is what an unlisted one reads as. -/
def Memory.wfFrom : Nat → Memory → Bool
  | _, [] => true
  | lo, (k, b) :: m =>
    decide (lo ≤ k) && decide (k < 2 * Config.memWords) && decide (b ≠ Memory.unlisted) && Memory.wfFrom (k + 1) m

/-- The one canonical form of memory: equal stores are equal lists (log 1). -/
def Memory.wf (m : Memory) : Bool := Memory.wfFrom 0 m

/-- The byte at byte address `a`. -/
def readCell : Memory → Nat → Byte
  | [], _ => Memory.unlisted
  | (k, b) :: m, a => if a = k then b else readCell m a

/-- Put a byte before `m`, unless an unlisted byte reads so. -/
def listCell (a : Nat) (b : Byte) (m : Memory) : Memory := if b = Memory.unlisted then m else (a, b) :: m

/-- Store a byte at byte address `a`, keeping the canonical form. -/
def writeCell : Memory → Nat → Byte → Memory
  | [], a, v => listCell a v []
  | (k, b) :: m, a, v =>
    if a < k then listCell a v ((k, b) :: m)
    else if a = k then listCell a v m
    else (k, b) :: writeCell m a v

/-- The word at word address `a`: its low byte at 2a, its high byte at 2a+1 (R36, log 1). -/
def readWord (m : Memory) (a : Nat) : Word := readCell m (2 * a + 1) ++ readCell m (2 * a)

/-- Store a word at word address `a`. -/
def writeWord (m : Memory) (a : Nat) (v : Word) : Memory :=
  writeCell (writeCell m (2 * a) (v.extractLsb' 0 8)) (2 * a + 1) (v.extractLsb' 8 8)

/-- Store words at consecutive addresses from `a` on. Words past the end of the store have no place and are dropped. -/
def writeWords (m : Memory) (a : Nat) : List Word → Memory
  | [] => m
  | v :: vs => writeWords (if a < Config.memWords then writeWord m a v else m) (a + 1) vs

/-- `n` words of the store from address `p` on, fewer where the store ends (R35, R55). -/
def fetchWords (m : Memory) : Nat → Nat → List Word
  | 0, _ => []
  | n + 1, p => if p < Config.memWords then readWord m p :: fetchWords m n (p + 1) else []

/-! ## One field at a time -/

/-- Write the 16-bit word `v` to register `i` (R8, R10: no register is hardwired, and no value is masked). -/
def State.setReg (s : State) (i : RegIdx) (v : Word) : State := { s with regs := s.regs.set i v }

/-- Read register `i` (R9). -/
def State.reg (s : State) (i : RegIdx) : Word := s.regs[i]

def State.setMem (s : State) (m : Memory) : State := { s with mem := m }

def State.setStack (s : State) (st : List Word) : State := { s with stack := st }

def State.setPc (s : State) (p : Word) : State := { s with pc := p }

def State.setStatus (s : State) (x : Status) : State := { s with status := x }

def State.setReport (s : State) (r : FaultReport) : State := { s with report := r }

def State.setEnv (s : State) (e : Env) : State := { s with env := e }

def State.setResult (s : State) (r : StepResult) : State := { s with result := some r }

/-! ## Data access -/

/-- `MemRead(addr, 1)`: `none` where the address is out of bounds (R35, R85). -/
def State.load? (s : State) (a : Word) : Option Word :=
  if a.toNat < Config.memWords then some (readWord s.mem a.toNat) else none

/-- `MemWrite(addr, 1, v)`: `none` where the address is out of bounds (R35, R85). -/
def State.store? (s : State) (a v : Word) : Option State :=
  if a.toNat < Config.memWords then some (s.setMem (writeWord s.mem a.toNat v)) else none

/-! ## Operand stack -/

/-- `|S| == STACK_CAP` (R67, R75): never so in an unbounded build (R100). -/
def State.stackFull (s : State) : Bool :=
  match s.stackCap with
  | none => false
  | some cap => decide (s.stack.length = cap)

/-- `StackPush(v)`: `none` where the stack is full (R100). -/
def State.push? (s : State) (v : Word) : Option State :=
  if s.stackFull then none else some (s.setStack (v :: s.stack))

/-- `StackPop()`: the top word, with the state without it; `none` where the stack is empty (R16). -/
def State.pop? (s : State) : Option (Word × State) :=
  match s.stack with
  | [] => none
  | v :: rest => some (v, s.setStack rest)

/-! ## How a step ends -/

/-- `fault_code` of a failure (R94). -/
def Failure.code : Failure → BitVec 4
  | .decode (.invalidIp _) => 1
  | .decode (.illegalInstruction _) => 2
  | .decode (.invalidSrcOperand _) => 3
  | .decode (.invalidDstOperand _) => 4
  | .stackUnderflow => 5
  | .invalidAddress _ => 6
  | .invalidIOWord _ => 7
  | .ioError => 8
  | .modByZero => 9
  | .stackOverflow => 10

/-- `fault_info` of a failure (R94). -/
def Failure.info : Failure → Word
  | .decode (.invalidIp a) => a
  | .decode (.illegalInstruction w) => w
  | .decode (.invalidSrcOperand w) => w
  | .decode (.invalidDstOperand w) => w
  | .stackUnderflow => 0
  | .invalidAddress a => a
  | .invalidIOWord w => w
  | .ioError => 0
  | .modByZero => 0
  | .stackOverflow => 0

/-- `fault_report(F, info)` of R22. -/
def State.faultReport (s : State) (f : Failure) : FaultReport :=
  { valid := true, code := f.code, info := f.info, pc := s.pc, seen := true }

/-- The state a failing step leaves: the report is written and nothing else of the core changes (R22, R96). -/
def State.failed (s : State) (f : Failure) : State := (s.setReport (s.faultReport f)).setResult (.fault f.code f.info)

/-- Taking a failure, the one way a step fails. There is no vector, no saved state and no return (R98, R99). -/
def fail (f : Failure) (s : State) : Outcome := .next (s.failed f)

/-- The end of R22: the writes are committed, `fault_valid <- 0`, and the step returns `r`. -/
def State.committed (s : State) (r : StepResult) : State :=
  (s.setReport { s.report with valid := false }).setResult r

def commit (r : StepResult) (s : State) : Outcome := .next (s.committed r)

/-- A step that returns Stall writes no state (R21, R22). -/
def stall (s : State) : Outcome := .next (s.setResult .stall)

/-- The decoder's next address for the instruction at pc (R56). -/
def State.nextAddr (s : State) (i : Instr) : Word := BitVec.ofNat 16 (s.pc.toNat + i.length)

/-- `pc <- next`, and the instruction completes (R12). -/
def advance (i : Instr) (s : State) : Outcome := commit .done (s.setPc (s.nextAddr i))

/-- `pc <- target`, and the instruction completes (R12, R71: the target is not checked). -/
def jumpTo (target : Word) (s : State) : Outcome := commit .done (s.setPc target)

/-- `x[i] <- v; pc <- next`, and the instruction completes. -/
def writeBack (i : Instr) (d : RegIdx) (v : Word) (s : State) : Outcome := advance i (s.setReg d v)

/-- `status <- Halted`; pc is not advanced (R64, R76). -/
def haltCore (s : State) : Outcome := commit .halt (s.setStatus .halted)

/-! ## The byte ports -/

/-- What the input port shows now (R89). -/
def Env.inNow (e : Env) : InSample :=
  match e.inSched with
  | [] => e.inIdle
  | x :: _ => x

/-- How the output port answers now (R88). -/
def Env.outNow (e : Env) : OutSample :=
  match e.outSched with
  | [] => e.outIdle
  | x :: _ => x

/-- The input port has been sampled once: the next sampling sees its next cycle. -/
def Env.inStep (e : Env) : Env := { e with inSched := e.inSched.tail }

/-- The core asserts `in_take`: byte `b` is consumed (R89). -/
def Env.take (e : Env) (b : Byte) : Env := { e.inStep with inTaken := e.inTaken ++ [b] }

/-- The output port has been offered a byte once. -/
def Env.outStep (e : Env) : Env := { e with outSched := e.outSched.tail }

/-- The sink takes byte `b` (R88). -/
def Env.give (e : Env) (b : Byte) : Env := { e.outStep with outGiven := e.outGiven ++ [b] }

/-! ## Fetch -/

/-- `decode(M, pc)`, the decode-only peek of R27 too. The decoder sees at most four words (R58), and none past the store's end. -/
def decodeAt (s : State) : Decoded := decode s.pc (fetchWords s.mem Config.maxLen s.pc.toNat)

/-- The state in which the words stand at pc for the very next step to run: Running, and pc moved to 0 where fewer than four words of
the store are left (log 11). -/
def State.placeAtPc (s : State) (ws : List Word) : State :=
  let p : Word := if s.pc.toNat + Config.maxLen ≤ Config.memWords then s.pc else 0
  ((s.setPc p).setStatus .running).setMem (writeWords s.mem p.toNat ws)

end Sys2Proof.Machine
end

