-- ==== Sys2Proof/Machine/Operands.lean ====
section
/-! DEFINITION. The value of a Source operand, the one data addressing mode (45_memory_access.md R85) and the I/O validity mask (46_io.md R90). -/

namespace Sys2Proof.Machine

/-- `val(op)`: `n` for `Imm(n)`, `x[i]` for `Reg(i)` (00_scope.md section 4, R53: the word unchanged). -/
def State.val (s : State) : Src → Word
  | .imm n => n
  | .reg i => s.reg i

/-- R85: the effective address is the operand's value, used unchanged. -/
def State.address (s : State) (a : Src) : Word := s.val a

/-- R90: a word is a byte for `out` when `v & 0xFF00 == 0`. -/
def ioValid (v : Word) : Bool := v &&& 0xFF00 == 0

/-- `v[7:0]` (R91). -/
def lowByte (v : Word) : Byte := v.extractLsb' 0 8

/-- `zext_16(b)` (R92). -/
def zext16 (b : Byte) : Word := b.setWidth 16

/-- The carriage return, which `in` discards (R92). -/
def carriageReturn : Byte := 0x0D

end Sys2Proof.Machine
end

