-- ==== Sys2Proof/Machine/ArithLogic.lean ====
section
/-! DEFINITION. add, mult, mod, and, or and not (44_arith_logic.md). -/

namespace Sys2Proof.Machine

/-- R78: the high tag bit, bit 15, is masked off. -/
def maskTag (v : Word) : Word := v &&& 0x7FFF

/-- R79: the sum modulo 2^16, then bit 15 cleared. -/
def aluAdd (b c : Word) : Word := maskTag (b + c)

/-- R80: the product modulo 2^16, then bit 15 cleared. -/
def aluMult (b c : Word) : Word := maskTag (b * c)

/-- R84: the complement, then bit 15 cleared. -/
def aluNot (b : Word) : Word := maskTag (~~~b)

/-- R81: the unsigned remainder, not masked; `none` for a zero divisor. -/
def aluMod (b c : Word) : Option Word := if c = 0 then none else some (b % c)

/-- R79. -/
def execAdd (a : RegIdx) (b c : Src) (s : State) : Outcome :=
  writeBack (.add a b c) a (aluAdd (s.val b) (s.val c)) s

/-- R80. -/
def execMult (a : RegIdx) (b c : Src) (s : State) : Outcome :=
  writeBack (.mult a b c) a (aluMult (s.val b) (s.val c)) s

/-- R81: ModByZero for a zero divisor. -/
def execMod (a : RegIdx) (b c : Src) (s : State) : Outcome :=
  match aluMod (s.val b) (s.val c) with
  | none => fail .modByZero s
  | some v => writeBack (.mod a b c) a v s

/-- R82: 16 bits, not masked. -/
def execAnd (a : RegIdx) (b c : Src) (s : State) : Outcome :=
  writeBack (.and a b c) a (s.val b &&& s.val c) s

/-- R83: 16 bits, not masked. -/
def execOr (a : RegIdx) (b c : Src) (s : State) : Outcome :=
  writeBack (.or a b c) a (s.val b ||| s.val c) s

/-- R84. -/
def execNot (a : RegIdx) (b : Src) (s : State) : Outcome := writeBack (.not a b) a (aluNot (s.val b)) s

end Sys2Proof.Machine
end

