-- ==== Sys2Proof/Machine/Flags.lean ====
section
/-! DEFINITION. The core has no flags (10_state.md R15). What stands in their place: the 0 or 1 a comparison writes, and the test of a condition. -/

namespace Sys2Proof.Machine

/-- The result word of eq and gt (R69, R70). -/
def boolWord (b : Bool) : Word := if b then 1 else 0

/-- A condition is true when it is not zero, in all 16 bits (R73, R74). -/
def isTrue (v : Word) : Bool := v != 0

/-- R70: unsigned 16-bit comparison, the left operand greater. -/
def isGreater (b c : Word) : Bool := c.ult b

end Sys2Proof.Machine
end

