-- ==== Sys2Proof/Machine/Compare.lean ====
section
/-! DEFINITION. eq and gt (42_compare.md). -/

namespace Sys2Proof.Machine

/-- R69: equality of full 16-bit words. -/
def execEq (a : RegIdx) (b c : Src) (s : State) : Outcome :=
  writeBack (.eq a b c) a (boolWord (s.val b == s.val c)) s

/-- R70: unsigned `val(b) > val(c)`. -/
def execGt (a : RegIdx) (b c : Src) (s : State) : Outcome :=
  writeBack (.gt a b c) a (boolWord (isGreater (s.val b) (s.val c))) s

end Sys2Proof.Machine
end

