-- ==== Sys2Proof/Machine/Control.lean ====
section
/-! DEFINITION. jmp, jt, jf, call and ret (43_control.md). -/

namespace Sys2Proof.Machine

/-- R72: `pc <- val(a)`. -/
def execJmp (a : Src) (s : State) : Outcome := jumpTo (s.val a) s

/-- R73: jump when the condition is not zero. -/
def execJt (a b : Src) (s : State) : Outcome :=
  if isTrue (s.val a) then jumpTo (s.val b) s else advance (.jt a b) s

/-- R74: jump when the condition is zero. -/
def execJf (a b : Src) (s : State) : Outcome :=
  if isTrue (s.val a) then advance (.jf a b) s else jumpTo (s.val b) s

/-- R75: the target is read before the push; the word pushed is the address after the call. -/
def execCall (a : Src) (s : State) : Outcome :=
  match s.push? (s.nextAddr (.call a)) with
  | none => fail .stackOverflow s
  | some s1 => jumpTo (s.val a) s1

/-- R76: an empty stack halts and is no failure; else the top word is the target. -/
def execRet (s : State) : Outcome :=
  match s.pop? with
  | none => haltCore s
  | some (v, s1) => jumpTo v s1

end Sys2Proof.Machine
end

