-- ==== Sys2Proof/Machine/InputOutput.lean ====
section
/-! DEFINITION. out and in (46_io.md). -/

namespace Sys2Proof.Machine

/-- R91: the validity check comes before the port is offered anything; then the port answers (R88). -/
def execOut (a : Src) (s : State) : Outcome :=
  if ioValid (s.val a) then
    match s.env.outNow with
    | .error => fail .ioError (s.setEnv s.env.outStep)
    | .notReady => stall (s.setEnv s.env.outStep)
    | .ready => advance (.out a) (s.setEnv (s.env.give (lowByte (s.val a))))
  else fail (.invalidIOWord (s.val a)) s

/-- R92: a carriage return is consumed and discarded, and the same `in` is tried again. -/
def execInp (a : RegIdx) (s : State) : Outcome :=
  match s.env.inNow with
  | .error => fail .ioError (s.setEnv s.env.inStep)
  | .none => stall (s.setEnv s.env.inStep)
  | .byte b =>
    if b = carriageReturn then stall (s.setEnv (s.env.take b))
    else writeBack (.inp a) a (zext16 b) (s.setEnv (s.env.take b))

end Sys2Proof.Machine
end

