-- ==== Sys2Proof/Machine/MachineControl.lean ====
section
/-! DEFINITION. halt and noop (40_machine_control.md). -/

namespace Sys2Proof.Machine

/-- R64: `status <- Halted`. -/
def execHalt (s : State) : Outcome := haltCore s

/-- R65: `pc <- next`. -/
def execNoop (s : State) : Outcome := advance .noop s

end Sys2Proof.Machine
end

