-- ==== Sys2Proof/Machine/MemoryAccess.lean ====
section
/-! DEFINITION. rmem and wmem (45_memory_access.md). -/

namespace Sys2Proof.Machine

/-- R86: the word at the address goes to the register, not masked. -/
def execRmem (a : RegIdx) (b : Src) (s : State) : Outcome :=
  match s.load? (s.address b) with
  | none => fail (.invalidAddress (s.address b)) s
  | some v => writeBack (.rmem a b) a v s

/-- R87: the value goes to the word at the address. -/
def execWmem (a b : Src) (s : State) : Outcome :=
  match s.store? (s.address a) (s.val b) with
  | none => fail (.invalidAddress (s.address a)) s
  | some s1 => advance (.wmem a b) s1

end Sys2Proof.Machine
end

