-- ==== Sys2Proof/Machine/MoveStack.lean ====
section
/-! DEFINITION. set, push and pop (41_move_stack.md). -/

namespace Sys2Proof.Machine

/-- R66: `x[i] <- val(b)`, not masked. -/
def execSet (a : RegIdx) (b : Src) (s : State) : Outcome := writeBack (.set a b) a (s.val b) s

/-- R67: StackOverflow in a full finite build, else the value goes on top. -/
def execPush (a : Src) (s : State) : Outcome :=
  match s.push? (s.val a) with
  | none => fail .stackOverflow s
  | some s1 => advance (.push a) s1

/-- R68: StackUnderflow on an empty stack, else the top word goes to the register. -/
def execPop (a : RegIdx) (s : State) : Outcome :=
  match s.pop? with
  | none => fail .stackUnderflow s
  | some (v, s1) => writeBack (.pop a) a v s1

end Sys2Proof.Machine
end

