-- ==== Sys2Proof/Machine/Step.lean ====
section
/-! DEFINITION. One step of the core (10_state.md R22). -/

namespace Sys2Proof.Machine

/-- R22. A step taken while Halted changes nothing and returns Halt (R26). -/
def step (s : State) : Host.Outcome State Fault Refusal :=
  match s.status with
  | .halted => .next (s.setResult .halt)
  | .running =>
    match decodeAt s with
    | .error e => fail (.decode e) s
    | .ok (i, _) => exec i s

/-- `s` with an instruction, numbered as opcode_table.json numbers it, standing where the next step fetches (log 11). -/
def State.withFetchWord (s : State) (nbits w : Nat) : State := s.placeAtPc (tableWords nbits w)

end Sys2Proof.Machine
end

