-- ==== Sys2Proof/Machine/Assembler.lean ====
section
/-! DEFINITION. The assembler syntax (30_encoding.md R62). Text is a list of characters. -/

namespace Sys2Proof.Machine

abbrev Text := List Char

/-- The lower-case instruction names in opcode order (R54, R62). -/
def mnemonics : List Text :=
  [ ['h','a','l','t'], ['s','e','t'], ['p','u','s','h'], ['p','o','p'], ['e','q'], ['g','t'], ['j','m','p'], ['j','t'], ['j','f'] ] ++
  [ ['a','d','d'], ['m','u','l','t'], ['m','o','d'], ['a','n','d'], ['o','r'], ['n','o','t'], ['r','m','e','m'], ['w','m','e','m'] ] ++
  [ ['c','a','l','l'], ['r','e','t'], ['o','u','t'], ['i','n'], ['n','o','o','p'] ]

/-- What may stand for an operand (R62). -/
inductive Token where
  /-- `r0` to `r7` -/
  | register (i : RegIdx)
  /-- a label and its address -/
  | label (name : Text) (address : Word)
  /-- `'c'`, by its code -/
  | character (c : Byte)
  /-- a decimal numeral -/
  | numeral (n : Word)
  deriving DecidableEq, Repr

/-- A plain ASCII printable byte with no I/O-invalid high bits (R62, R90). -/
def isPrintable (w : Word) : Bool := ioValid w && decide (0x20 ≤ w.toNat) && decide (w.toNat ≤ 0x7E)

/-- The three ways to show a word, in order (R62): a label where the caller gives one (log 12), a character, a numeral. -/
def wordToken (label : Option Text) (w : Word) : Token :=
  match label with
  | some name => .label name w
  | none => if isPrintable w then .character (lowByte w) else .numeral w

/-- How an operand is shown (R62). -/
def operandToken (label : Option Text) : Src → Token
  | .reg i => .register i
  | .imm n => wordToken label n

/-- The operand tokens of an instruction in encoding order. `labels` gives, for each operand place, the label to show there. -/
def instrTokens (labels : Nat → Option Text) (i : Instr) : List Token :=
  i.operands.mapIdx fun k o => operandToken (labels k) o

def digit (n : Nat) : Char := Char.ofNat (48 + n)

/-- Decimal digits; `fuel` bounds their number. -/
def digits : Nat → Nat → Text
  | 0, _ => []
  | fuel + 1, n => if n < 10 then [digit n] else digits fuel (n / 10) ++ [digit (n % 10)]

/-- A token as text (R62). -/
def Token.text : Token → Text
  | .register i => ['r', digit i.val]
  | .label name _ => name
  | .character c => ['\'', Char.ofNat c.toNat, '\'']
  | .numeral n => digits 5 n.toNat

/-- The mnemonic of an instruction. -/
def mnemonicOf (i : Instr) : Text := mnemonics.getD i.opcode []

/-- The mnemonic, then each operand after a space (R62). -/
def instrText (labels : Nat → Option Text) (i : Instr) : Text :=
  mnemonicOf i ++ (instrTokens labels i).flatMap fun t => ' ' :: t.text

/-- A word that does not decode is shown as one data value (R62). -/
def dataText (label : Option Text) (w : Word) : Text := (wordToken label w).text

/-- A line whose address is a label starts with it (R62). -/
def lineText (label : Option Text) (body : Text) : Text :=
  match label with
  | some name => name ++ [':', ' '] ++ body
  | none => body

/-- R62: what an operand token stands for. A numeral is 0 to 32767, and a label stands for its address. -/
def tokenSrc : Token → Option Src
  | .register i => some (.reg i)
  | .label _ a => if Src.wf (.imm a) then some (.imm a) else none
  | .character c => some (.imm (zext16 c))
  | .numeral n => if Src.wf (.imm n) then some (.imm n) else none

/-- The operands of all tokens; `none` where one stands for no operand. -/
def tokenSrcs : List Token → Option (List Src)
  | [] => some []
  | t :: ts =>
    match tokenSrc t, tokenSrcs ts with
    | some o, some os => some (o :: os)
    | _, _ => none

/-- The opcode whose mnemonic this is. -/
def opcodeOf (name : Text) : Option Nat := mnemonics.findIdx? (· == name)

/-- The assembler (R62, R59): the opcode word and the operand words, taken where they decode as one whole instruction. -/
def assemble (name : Text) (ts : List Token) : Option Instr :=
  match opcodeOf name, tokenSrcs ts with
  | some op, some os =>
    match decode 0 (BitVec.ofNat 16 op :: os.map encodeSrc) with
    | .ok (i, next) => if next.toNat = os.length + 1 then some i else none
    | .error _ => none
  | _, _ => none

end Sys2Proof.Machine
end

