-- ==== Sys2Proof/Machine/HostAccess.lean ====
section
/-! DEFINITION. What the host does between steps: its writes and reads (10_state.md R29 to R33), the reset pin and the image load
(70_reset_and_hazards.md R109 to R111), one clock edge (R28), and `run()` (R25). -/

namespace Sys2Proof.Machine

/-- `h_stk_push` with its word, or `h_stk_pop` (R29). -/
inductive StackPin where
  | push (v : Word)
  | pop
  deriving DecidableEq, Repr

/-- What the host drives in one cycle (R29, R31): one register index and one word address, each for the read and the write of the cycle, and at most one
register write, one memory write and one stack operation. There is no pin for pc, status or the fault report (R32). -/
structure HostPins where
  /-- `h_reg_sel` -/
  regSel : RegIdx
  /-- `h_reg_wdata` where `h_reg_we` = 1 -/
  regWrite : Option Word
  /-- `h_mem_addr` -/
  memAddr : BitVec 15
  /-- `h_mem_wdata` where `h_mem_we` = 1 -/
  memWrite : Option Word
  /-- `h_stk_push` or `h_stk_pop`, never both (log 10) -/
  stk : Option StackPin
  deriving DecidableEq, Repr

/-- The register write of the cycle: `h_reg_wdata` to register `h_reg_sel` where `h_reg_we` = 1. -/
def HostPins.reg (p : HostPins) : Option (RegIdx × Word) := p.regWrite.map fun v => (p.regSel, v)

/-- The memory write of the cycle: `h_mem_wdata` to address `h_mem_addr` where `h_mem_we` = 1. -/
def HostPins.mem (p : HostPins) : Option (BitVec 15 × Word) := p.memWrite.map fun v => (p.memAddr, v)

/-- `x[h_reg_sel] <- h_reg_wdata`. -/
def hostReg (p : Option (RegIdx × Word)) (s : State) : State :=
  match p with
  | none => s
  | some (i, v) => s.setReg i v

/-- `M[h_mem_addr] <- h_mem_wdata`; a 15-bit address is always in the store. -/
def hostMem (p : Option (BitVec 15 × Word)) (s : State) : State :=
  match p with
  | none => s
  | some (a, v) => s.setMem (writeWord s.mem a.toNat v)

/-- Push or pop. A pop of an empty stack changes nothing (R31). So does a push where a finite stack is full: DESIGN CHOICE, log 7. -/
def hostStack (p : Option StackPin) (s : State) : State :=
  match p with
  | none => s
  | some (.push v) => (s.push? v).getD s
  | some .pop => s.setStack s.stack.tail

/-- The host's access of one cycle (R31). The three parts touch different state, so their order does not matter. -/
def hostAccess (p : HostPins) (s : State) : State := hostStack p.stk (hostMem p.mem (hostReg p.reg s))

/-- `h_stk_top`: the top word, 0 when empty (R29). -/
def State.stackTop (s : State) : Word := s.stack.headD 0

/-- `h_stk_depth` (R29), as an exact number. R29 leaves the width of the port to the implementation. DESIGN CHOICE: no width, no truncation and no
saturation (log 14). -/
def State.stackDepth (s : State) : Nat := s.stack.length

/-- `rst` = 1 at a clock edge (R109): every field of the core at its reset value. The ports are outside the core and are not reset (D16), and
the capacity is a parameter of the build. -/
def State.afterRst (s : State) : State := { State.reset with stackCap := s.stackCap, env := s.env }

/-- What drives one clock edge (R28). -/
structure CycleIn where
  rst : Bool
  runEn : Bool
  host : HostPins
  deriving DecidableEq, Repr

/-- A cycle whose clock edge performs a step: `run_en` = 1 and `rst` = 0 (R28, R115). -/
def CycleIn.steps (c : CycleIn) : Bool := c.runEn && !c.rst

/-- One rising edge of `clk`. `rst` resets whatever `run_en` is, and a step needs `rst` = 0 (R28, R109, R115). Host pins have no effect where `rst` or
`run_en` is 1: log 10. A host write is committed at the edge: DESIGN CHOICE (log 15). -/
def cycle (c : CycleIn) (s : State) : Outcome :=
  if c.rst then .next s.afterRst
  else if c.runEn then step s
  else .next (hostAccess c.host s)

/-- Why a load fails (R111). -/
inductive LoadFailure where
  /-- an odd byte count -/
  | badBinary
  /-- more than 32,768 words -/
  | programTooLarge
  deriving DecidableEq, Repr

/-- The words of an image, little-endian (R36, R110). -/
def imageWords : List Byte → List Word
  | lo :: hi :: rest => (hi ++ lo) :: imageWords rest
  | _ => []

/-- The load of R110 and R111: it writes the word store alone, or fails and writes nothing. R110 has the load come right after reset, when every word is 0.
DESIGN CHOICE: from any other state it writes the same words and keeps those past the image (log 16). -/
def loadImage (bytes : List Byte) (s : State) : Except LoadFailure State :=
  if bytes.length % 2 = 1 then .error .badBinary
  else if 2 * Config.memWords < bytes.length then .error .programTooLarge
  else .ok (s.setMem (writeWords s.mem 0 (imageWords bytes)))

/-- Whether `run()` ends after a step that returned so (R25): Halt and Fault end it, Done and Stall do not. -/
def endsRun : Option StepResult → Bool
  | some .halt => true
  | some (.fault _ _) => true
  | some .done => false
  | some .stall => false
  | none => false

/-- `run()` for at most `n` steps (R25). -/
def runFor : Nat → State → Outcome
  | 0, s => .next s
  | n + 1, s =>
    match step s with
    | .next t => if endsRun t.result then .next t else runFor n t
    | .fault r => .fault r
    | .refused r => .refused r

end Sys2Proof.Machine
end

