-- ==== Sys2Proof/Machine/Ports.lean ====
section
/-! DEFINITION. The outputs of the decoder block (30_encoding.md R58) and of the execution core (10_state.md R28, R29). -/

namespace Sys2Proof.Machine

/-- `d_opK_is_reg`, `d_opK_reg`, `d_opK_imm`. -/
structure OperandPort where
  isReg : Bool
  reg : BitVec 3
  imm : Word
  deriving DecidableEq, Repr

/-- The outputs of the decoder block. -/
structure DecoderPorts where
  valid : Bool
  err : BitVec 4
  errInfo : Word
  opcode : BitVec 5
  len : BitVec 3
  next : Word
  opA : OperandPort
  opB : OperandPort
  opC : OperandPort
  deriving DecidableEq, Repr

/-- R58: the outputs of an operand beyond the instruction's arity are 0. -/
def OperandPort.zero : OperandPort := { isReg := false, reg := 0, imm := 0 }

/-- R58. The index of an immediate and the immediate of a register reference are free values (log 8). -/
def operandPort : Option Src → OperandPort
  | none => OperandPort.zero
  | some (.imm n) => { isReg := false, reg := Config.indexOfImmediate n, imm := n }
  | some (.reg i) => { isReg := true, reg := BitVec.ofNat 3 i.val, imm := Config.immediateOfRegister (encodeSrc (.reg i)) }

/-- R58: when `d_valid` = 0 every output other than `d_err` and `d_err_info` is 0. When `d_valid` = 1 the spec gives `d_err_info` no value: a free value
(log 8). -/
def decoderPortsOf : Decoded → DecoderPorts
  | .error e =>
    { valid := false, err := (Failure.decode e).code, errInfo := (Failure.decode e).info, opcode := 0, len := 0, next := 0
      opA := OperandPort.zero, opB := OperandPort.zero, opC := OperandPort.zero }
  | .ok (i, next) =>
    { valid := true, err := 0, errInfo := Config.errInfoOfSuccess (encode i) next, opcode := BitVec.ofNat 5 i.opcode, len := BitVec.ofNat 3 i.length, next := next
      opA := operandPort i.operands[0]?, opB := operandPort i.operands[1]?, opC := operandPort i.operands[2]? }

/-- The decoder block: `d_w0` to `d_w3` are don't-care where the address is 32768 or more (R58). -/
def decoderBlock (dPc w0 w1 w2 w3 : Word) : DecoderPorts :=
  decoderPortsOf (decode dPc ([w0, w1, w2, w3].take (Config.memWords - dPc.toNat)))

/-- `peek_*`: the decoder outputs for the current pc (R27, R28). -/
def State.peek (s : State) : DecoderPorts :=
  decoderBlock s.pc (readWord s.mem s.pc.toNat) (readWord s.mem (s.pc.toNat + 1)) (readWord s.mem (s.pc.toNat + 2))
    (readWord s.mem (s.pc.toNat + 3))

/-- The instruction the core executes in a cycle with `run_en` = 1; `none` when Halted or when it does not decode (R22). -/
def State.executing (s : State) : Option Instr :=
  match s.status with
  | .halted => none
  | .running =>
    match decodeAt s with
    | .error _ => none
    | .ok (i, _) => some i

/-- The byte a step from this state offers to the sink (R88, R91). -/
def State.outOffer (s : State) : Option Byte :=
  match s.executing with
  | some (.out a) => if ioValid (s.val a) then some (lowByte (s.val a)) else none
  | _ => none

/-- The byte a step from this state consumes (R89, R92). -/
def State.inTake (s : State) : Option Byte :=
  match s.executing, s.env.inNow with
  | some (.inp _), .byte b => some b
  | _, _ => none

/-- `out_valid` with `out_data` in the cycle `c` drives: the byte the step of that cycle offers, and none (`out_valid` = 0) in a cycle without a step, with
`run_en` = 0 or `rst` = 1 (R28: "core idle"). `out_data` has no value while `out_valid` = 0 (log 13). -/
def State.outPort (c : CycleIn) (s : State) : Option Byte := if c.steps then s.outOffer else none

/-- `in_take` with the byte consumed in the cycle `c` drives; none (`in_take` = 0) in a cycle without a step (R28). -/
def State.inPort (c : CycleIn) (s : State) : Option Byte := if c.steps then s.inTake else none

/-- `status` as a bit (R17). -/
def Status.bit : Status → BitVec 1
  | .running => 0
  | .halted => 1

/-- The outputs of the host access group (R29). -/
structure HostReads where
  /-- `h_reg_rdata` -/
  regRdata : Word
  /-- `h_mem_rdata` -/
  memRdata : Word
  /-- `h_stk_top` -/
  stkTop : Word
  /-- `h_stk_depth`, as an exact number. R29 leaves its width to the implementation. DESIGN CHOICE: no width, so nothing is cut off (log 14). -/
  stkDepth : Nat
  deriving DecidableEq, Repr

/-- What the host reads at `h_reg_sel` and `h_mem_addr`, the same selects its writes of the cycle use (R29, R30). DESIGN CHOICE: the values are those before the cycle's clock edge, so a cycle
that also writes the register, word or stack shows the old ones (log 15). -/
def State.hostReads (p : HostPins) (s : State) : HostReads :=
  { regRdata := s.reg p.regSel
    memRdata := readWord s.mem p.memAddr.toNat
    stkTop := s.stackTop
    stkDepth := s.stackDepth }

/-- All outputs of the core in one cycle (R28, R29). -/
structure CorePorts where
  status : BitVec 1
  faultValid : Bool
  faultCode : BitVec 4
  faultInfo : Word
  faultPc : Word
  faultSeen : Bool
  pcQ : Word
  peek : DecoderPorts
  inTake : Bool
  outValid : Bool
  /-- `out_data`; no value while `out_valid` = 0 (log 13) -/
  outData : Option Byte
  /-- the host access group; no value while `run_en` = 1, when R29 has it out of use (log 13) -/
  host : Option HostReads
  deriving DecidableEq, Repr

/-- The outputs in the cycle `c` drives, before its clock edge. The host's outputs do not show what the host
writes in the same cycle: DESIGN CHOICE (log 15). -/
def State.corePorts (c : CycleIn) (s : State) : CorePorts :=
  { status := s.status.bit
    faultValid := s.report.valid
    faultCode := s.report.code
    faultInfo := s.report.info
    faultPc := s.report.pc
    faultSeen := s.report.seen
    pcQ := s.pc
    peek := s.peek
    inTake := (s.inPort c).isSome
    outValid := (s.outPort c).isSome
    outData := s.outPort c
    host := if c.runEn then none else some (s.hostReads c.host) }

end Sys2Proof.Machine
end

