-- ==== Sys2Proof/Safety.lean ====
section
/-! DEFINITION. What claims about this machine speak of: the state a failing or stalling step keeps, a run without failures, and the invariant. -/

namespace Sys2Proof.Machine

/-- The registers, the memory, the stack, pc and status of `t` are those of `s`, and the build is the same: what R23 keeps through a failing
step. The fault report, the ports and the returned outcome are not compared. -/
structure SameCore (s t : State) : Prop where
  regs : t.regs = s.regs
  mem : t.mem = s.mem
  stack : t.stack = s.stack
  pc : t.pc = s.pc
  status : t.status = s.status
  stackCap : t.stackCap = s.stackCap

/-- No byte has passed a port between `s` and `t` (R96: "consumes no input and writes no output"). -/
structure SameTraffic (s t : State) : Prop where
  inTaken : t.env.inTaken = s.env.inTaken
  outGiven : t.env.outGiven = s.env.outGiven

/-- From `s` to `t` a step failed with this code and info: the report says so, with the pc of the failing step, and nothing of the core changed
(R22, R23, R95, R96). -/
structure FailsWith (code : BitVec 4) (info : Word) (s t : State) : Prop where
  core : SameCore s t
  traffic : SameTraffic s t
  report : t.report = { valid := true, code := code, info := info, pc := s.pc, seen := true }
  result : t.result = some (.fault code info)

/-- From `s` to `t` a step stalled: no state of the core is written, the fault report included (R21, R22). -/
structure Stalls (s t : State) : Prop where
  core : SameCore s t
  report : t.report = s.report
  result : t.result = some .stall

/-- A run is safe up to `s` when no step has failed since reset: the "no fault recorded" premise (R17, `fault_seen`). -/
def State.noFaultSeen (s : State) : Prop := s.report.seen = false

/-- What R17, R22 and R94 leave possible in the fault report: a code of R94; nothing recorded before the first failure; a code from then on; and
`fault_valid` only together with `fault_seen`. -/
structure FaultReport.Consistent (r : FaultReport) : Prop where
  codeRange : r.code.toNat ≤ 10
  unseen : r.seen = false → r = FaultReport.reset
  seen : r.seen = true → r.code ≠ 0

/-- The stack holds at most STACK_CAP words (R16, R100). -/
def State.StackWithinCap (s : State) : Prop := ∀ cap, s.stackCap = some cap → s.stack.length ≤ cap

/-- The invariant of the machine: the memory is in its canonical form inside the store (R19), the stack keeps to its capacity, and the fault report
is consistent. -/
structure State.Inv (s : State) : Prop where
  mem : Memory.wf s.mem = true
  stack : s.StackWithinCap
  report : s.report.Consistent

end Sys2Proof.Machine
end

