-- ==== Sys2Proof/Certificates/Slice0/Obligations.lean ====
section
/-! DEFINITION. The statements about this model, one per definition. Each docstring names the rule of spec/ or, where the spec marks a passage as its
own decision or inference, that passage. Three choices of the model run through them: a failure and a stall are next states (log 2), `result` is the
model's record of what a step returned (log 5), and `env` is the ports' environment as the model carries it (log 3, log 4, log 5). -/

open Sys2Proof Sys2Proof.Machine

/-! ## Encoding and decoding -/

/-- 30_encoding.md section 6, whole instruction set (R59). The opcode numbers and operand kinds rest on the spec's decisions D1 and D2. -/
def Obligations.DecodingAnEncodingGivesTheInstruction : Prop :=
  ∀ (i : Instr) (p : Word) (rest : List Word), i.wf = true →
    decode p (encode i ++ rest) = .ok (i, BitVec.ofNat 16 (p.toNat + i.length)) ∧ (encode i).length = i.length

/-- The other direction: what decodes is the encoding of a well-formed instruction, so no two word sequences mean one instruction and none falls through
to a neighbour (30_encoding.md sections 4 and 7; D1, D2). -/
def Obligations.DecodedWordsAreTheEncoding : Prop :=
  ∀ (p : Word) (ws : List Word) (i : Instr) (n : Word), decode p ws = .ok (i, n) →
    i.wf = true ∧ (∃ rest, ws = encode i ++ rest) ∧ n = BitVec.ofNat 16 (p.toNat + i.length)

/-- R51, with w[15], w[14:3] and w[2:0] written as numbers. -/
def Obligations.SourceOperandDecodesByItsBits : Prop :=
  ∀ w : Word,
    (w.toNat / 32768 = 0 → decodeSrc w = .ok (.imm w) ∧ w.toNat ≤ 32767) ∧
    (w.toNat / 32768 = 1 → w.toNat / 8 % 4096 = 0 → ∃ i : RegIdx, i.val = w.toNat % 8 ∧ decodeSrc w = .ok (.reg i)) ∧
    (w.toNat / 32768 = 1 → w.toNat / 8 % 4096 ≠ 0 → decodeSrc w = .error (.invalidSrcOperand w))

/-- R52: literals and invalid words alike are refused in a Destination position. -/
def Obligations.DestinationOperandIsARegisterOnly : Prop :=
  ∀ w : Word,
    (w.toNat / 32768 = 1 → w.toNat / 8 % 4096 = 0 → ∃ i : RegIdx, i.val = w.toNat % 8 ∧ decodeDst w = .ok i) ∧
    (w.toNat / 32768 = 1 → w.toNat / 8 % 4096 ≠ 0 → decodeDst w = .error (.invalidDstOperand w)) ∧
    (w.toNat / 32768 = 0 → decodeDst w = .error (.invalidDstOperand w))

/-- R53: an immediate is the whole word, a register index is w[2:0], and operand decoding is total. -/
def Obligations.ImmediateIsTheWholeWord : Prop :=
  ∀ (w : Word) (s : State),
    (∀ n, decodeSrc w = .ok (.imm n) → n = w ∧ n.toNat ≤ 32767 ∧ (w.setWidth 15).setWidth 16 = n ∧ s.val (.imm n) = w) ∧
    (∀ i, decodeSrc w = .ok (.reg i) → i.val = w.toNat % 8) ∧
    (∀ i, decodeDst w = .ok i → i.val = w.toNat % 8) ∧
    ((∃ n, decodeSrc w = .ok (.imm n)) ∨ (∃ i, decodeSrc w = .ok (.reg i)) ∨ decodeSrc w = .error (.invalidSrcOperand w)) ∧
    ((∃ i, decodeDst w = .ok i) ∨ decodeDst w = .error (.invalidDstOperand w))

/-- 30_encoding.md section 1 (R49): exactly the opcode words 22 to 65535 are illegal, those with bit 15 set among them (the spec marks that last part as
derived). -/
def Obligations.IllegalOpcodeWordsAreThoseFromTwentyTwo : Prop :=
  ∀ (p w v : Word) (rest : List Word),
    decode p (w :: rest) = .error (.illegalInstruction v) ↔ v = w ∧ 22 ≤ w.toNat

/-- 30_encoding.md section 4 (R55) and 60_exceptions.md section 2 (R97): the first bad operand word in read order is reported, as its place's kind. That the first failure
stops the decode is the spec's decision D14. -/
def Obligations.FirstBadOperandWordIsReported : Prop :=
  ∀ (i : Instr) (p w : Word) (k : Nat) (rest : List Word), i.wf = true → 1 ≤ k → k < i.length →
    (k = 1 → i.destination.isSome = true → (w.toNat < 32768 ∨ 32776 ≤ w.toNat) →
      decode p ((encode i).take k ++ w :: rest) = .error (.invalidDstOperand w)) ∧
    ((k ≠ 1 ∨ i.destination.isSome = false) → 32776 ≤ w.toNat →
      decode p ((encode i).take k ++ w :: rest) = .error (.invalidSrcOperand w))

/-- 30_encoding.md section 4 (R55), 10_state.md section 3 (R13): a step at an address of 32768 or more fails with InvalidIp of it, and an instruction that runs past the store fails with
InvalidIp(32768). The address carried is the spec's decision D13, the code D12. -/
def Obligations.FetchPastTheStoreFails : Prop :=
  (∀ s : State, s.status = .running → 32768 ≤ s.pc.toNat → ∃ t, step s = .next t ∧ FailsWith 1 s.pc s t) ∧
  (∀ (s : State) (i : Instr) (k : Nat), s.status = .running → i.wf = true → 1 ≤ k → k < i.length → s.pc.toNat + k = 32768 →
    (∀ j, j < k → (encode i)[j]? = some (readWord s.mem (s.pc.toNat + j))) →
    ∃ t, step s = .next t ∧ FailsWith 1 32768 s t)

/-- Words written out from R54's table, one per family, decode to their instructions (D1 and D2 give the numbers and kinds). -/
def Obligations.WrittenOutWordsDecode : Prop :=
  decode 0 [0x0015] = .ok (.noop, 1) ∧
  decode 0 [0x0001, 0x8000, 0x0048] = .ok (.set 0 (.imm 72), 3) ∧
  decode 0 [0x0004, 0x8000, 0x8001, 0x0005] = .ok (.eq 0 (.reg 1) (.imm 5), 4) ∧
  decode 3 [0x0011, 0x0009] = .ok (.call (.imm 9), 5) ∧
  decode 0 [0x0009, 0x8000, 0x8001, 0x0005] = .ok (.add 0 (.reg 1) (.imm 5), 4) ∧
  decode 0 [0x0010, 0x8001, 0x002A] = .ok (.wmem (.reg 1) (.imm 42), 3) ∧
  decode 0 [0x0014, 0x8007] = .ok (.inp 7, 2)

/-! ## The step -/

/-- 10_state.md section 9 (R22): a Running step at a well-formed instruction is that instruction's meaning, and the next address does not wrap (R56, derived in
the spec). -/
def Obligations.StepRunsTheDecodedInstruction : Prop :=
  (∀ (s : State) (i : Instr) (n : Word), s.status = .running → decodeAt s = .ok (i, n) →
    step s = exec i s ∧ n = s.nextAddr i ∧ n.toNat = s.pc.toNat + i.length) ∧
  (∀ (s : State) (i : Instr), s.status = .running → i.wf = true → s.pc.toNat + i.length ≤ 32768 →
    (∀ k, k < i.length → (encode i)[k]? = some (readWord s.mem (s.pc.toNat + k))) → step s = exec i s)

/-- 10_state.md section 9 (R22), 60_exceptions.md section 1 (R94, R95): what does not decode fails under its name. The codes and fault_pc are the spec's decision D12. -/
def Obligations.UndecodableWordsFailByName : Prop :=
  ∀ (s : State) (e : DecodeFailure), s.status = .running → decodeAt s = .error e →
    ∃ t, step s = .next t ∧
      (∀ a, e = .invalidIp a → FailsWith 1 a s t) ∧
      (∀ w, e = .illegalInstruction w → FailsWith 2 w s t) ∧
      (∀ w, e = .invalidSrcOperand w → FailsWith 3 w s t) ∧
      (∀ w, e = .invalidDstOperand w → FailsWith 4 w s t)

/-- 10_state.md section 9 (R26, decision D11). -/
def Obligations.HaltedStepChangesNothing : Prop :=
  ∀ s : State, s.status = .halted →
    ∃ t, step s = .next t ∧ SameCore s t ∧ t.report = s.report ∧ t.env = s.env ∧ t.result = some .halt

/-- Every step from every state answers a next state: no instruction is refused, and every failure of R94 is taken as R22 describes (log 2). -/
def Obligations.EveryStepAnswersANextState : Prop := ∀ s : State, ∃ t, step s = .next t

/-- 10_state.md section 9 (R21, R23) and 60_exceptions.md section 1 (R96): a failing step changes the report alone, moves no byte through a port, and records the pc it failed
at. For execution failures that is the spec's decision D9. -/
def Obligations.FailingStepChangesOnlyTheReport : Prop :=
  ∀ (s t : State) (c : BitVec 4) (w : Word), step s = .next t → t.result = some (.fault c w) → FailsWith c w s t

/-- 60_exceptions.md section 3 (R99, derived in the spec): the same failure comes again from the unchanged state. IOError (code 8) is left out, since the port
may answer otherwise the next time. -/
def Obligations.UnchangedStateFailsAgain : Prop :=
  ∀ (s t : State) (c : BitVec 4) (w : Word), step s = .next t → t.result = some (.fault c w) → c ≠ 8 →
    ∃ u, step t = .next u ∧ u.result = t.result ∧ u.report = t.report ∧ SameCore t u

/-- 10_state.md sections 6 and 9 (R17, R22): the fault report after a step that ran, by what the step returned. The report is the spec's decision D12. -/
def Obligations.FaultReportFollowsTheOutcome : Prop :=
  ∀ s t : State, s.status = .running → step s = .next t →
    (t.result = some .done ∨ t.result = some .halt → t.report = { s.report with valid := false }) ∧
    (t.result = some .stall → t.report = s.report) ∧
    (∀ c w, t.result = some (.fault c w) → t.report = { valid := true, code := c, info := w, pc := s.pc, seen := true }) ∧
    (t.result = some .halt ↔ t.status = .halted) ∧
    t.result ≠ none

/-- 10_state.md section 9 (R21), 46_io.md section 3 (R91, R92): a step stalls exactly when it executes an `in` that finds no byte or a carriage return, or an `out` of a valid
byte that the sink does not take yet, and it then keeps all state of the core. The handshakes are the spec's decisions D16 and D17. -/
def Obligations.OnlyWaitingInAndOutStall : Prop :=
  ∀ s t : State, step s = .next t →
    (t.result = some .stall ↔
      (∃ d, s.executing = some (.inp d) ∧ (s.env.inNow = .none ∨ s.env.inNow = .byte 13)) ∨
      (∃ a, s.executing = some (.out a) ∧ (s.val a).toNat ≤ 255 ∧ s.env.outNow = .notReady)) ∧
    (t.result = some .stall → Stalls s t ∧ decodeAt t = decodeAt s)

/-- 10_state.md sections 6 and 9 (R18, R26, decision D11): a halted core stays halted on every clock edge without `rst`, and its core state changes only by host access.
That host pins have no effect beside `run_en` = 1 or `rst` = 1 is the model's choice (log 10). -/
def Obligations.OnlyResetLeavesHalted : Prop :=
  ∀ (c : CycleIn) (s t : State), s.status = .halted → cycle c s = .next t →
    (c.rst = false → t.status = .halted) ∧
    (c.rst = false → c.runEn = true → SameCore s t) ∧
    (c.rst = true → t.status = .running)

/-- 10_state.md section 9 (R25, derived in the spec): `run()` is a row of steps, each before the last returning Done or Stall, and it ends early only on Halt or Fault. -/
def Obligations.RunStopsAtHaltOrFault : Prop :=
  ∀ (n : Nat) (s t : State), runFor n s = .next t →
    ∃ k, k ≤ n ∧ Host.Core.run Sys2Proof.core k s = .next t ∧
      (k < n → t.result = some .halt ∨ ∃ c w, t.result = some (.fault c w)) ∧
      ∀ (j : Nat) (u : State), 0 < j → j < k → Host.Core.run Sys2Proof.core j s = .next u →
        u.result = some .done ∨ u.result = some .stall

/-! ## The instructions: where each completes, and with what -/

/-- 40_machine_control.md (R64). That pc keeps its value is the spec's decision D10. -/
def Obligations.HaltStopsAtItsOwnAddress : Prop :=
  ∀ s : State, ∃ t, exec .halt s = .next t ∧ t.status = .halted ∧ t.pc = s.pc ∧ t.result = some .halt

/-- R65: its word, its effect and nothing else, and its one failure. `fault_valid` is cleared as R22 has every completing step do. -/
def Obligations.NoopOnlyAdvances : Prop :=
  encode .noop = [0x0015] ∧
  (∀ s : State, exec .noop s =
    .next { s with pc := s.pc + 1, report := { s.report with valid := false }, result := some .done }) ∧
  (∀ s : State, s.status = .running → 32768 ≤ s.pc.toNat → step s = fail (.decode (.invalidIp s.pc)) s) ∧
  (∀ s : State, s.status = .running → s.pc.toNat < 32768 → readWord s.mem s.pc.toNat = 0x0015 →
    ∃ t, step s = .next t ∧ t.result = some .done ∧ t.pc.toNat = s.pc.toNat + 1)

/-- 41_move_stack.md (R66). That nothing is masked is derived in the spec. -/
def Obligations.SetCopiesTheWholeWord : Prop :=
  ∀ (s : State) (a : RegIdx) (b : Src),
    ∃ t, exec (.set a b) s = .next t ∧ t.result = some .done ∧ t.reg a = s.val b ∧ t.pc = s.pc + 3

/-- 41_move_stack.md (R67), where the stack is not full (decisions D2, D6). -/
def Obligations.PushPutsTheValueOnTop : Prop :=
  ∀ (s : State) (a : Src), s.stackCap ≠ some s.stack.length →
    ∃ t, exec (.push a) s = .next t ∧ t.result = some .done ∧ t.stack = s.val a :: s.stack ∧ t.pc = s.pc + 2

/-- 41_move_stack.md (R68; decision D2): the top word goes to the register unmasked, and an empty stack is a StackUnderflow, never a halt. -/
def Obligations.PopTakesTheTopOrUnderflows : Prop :=
  (∀ (s : State) (a : RegIdx) (v : Word) (rest : List Word), s.stack = v :: rest →
    ∃ t, exec (.pop a) s = .next t ∧ t.result = some .done ∧ t.reg a = v ∧ t.stack = rest ∧ t.pc = s.pc + 2) ∧
  (∀ (s : State) (a : RegIdx), s.stack = [] → ∃ t, exec (.pop a) s = .next t ∧ FailsWith 5 0 s t)

/-- 42_compare.md (R69, R70), on the numbers 0 to 65535. Which operand of gt stands on the left is the spec's decision D2. -/
def Obligations.ComparisonsWriteOneOrZero : Prop :=
  ∀ (s : State) (a : RegIdx) (b c : Src),
    (∃ t, exec (.eq a b c) s = .next t ∧ t.result = some .done ∧ t.pc = s.pc + 4 ∧
      (t.reg a).toNat = if (s.val b).toNat = (s.val c).toNat then 1 else 0) ∧
    (∃ t, exec (.gt a b c) s = .next t ∧ t.result = some .done ∧ t.pc = s.pc + 4 ∧
      (t.reg a).toNat = if (s.val b).toNat > (s.val c).toNat then 1 else 0)

/-- 43_control.md (R71 to R74; operand order by decision D2): the target is the whole word, unchecked, and a condition is true when not 0. -/
def Obligations.JumpsSetPcToTheWholeWord : Prop :=
  ∀ (s : State) (a b : Src),
    (∃ t, exec (.jmp a) s = .next t ∧ t.result = some .done ∧ t.pc = s.val a) ∧
    (∃ t, exec (.jt a b) s = .next t ∧ t.result = some .done ∧ t.pc = if (s.val a).toNat ≠ 0 then s.val b else s.pc + 3) ∧
    (∃ t, exec (.jf a b) s = .next t ∧ t.result = some .done ∧ t.pc = if (s.val a).toNat = 0 then s.val b else s.pc + 3)

/-- 43_control.md (R75; decisions D2, D6): the address after the call goes on the stack, and the target is the value read before. -/
def Obligations.CallPushesTheAddressAfterIt : Prop :=
  ∀ (s : State) (a : Src), s.stackCap ≠ some s.stack.length →
    ∃ t, exec (.call a) s = .next t ∧ t.result = some .done ∧ t.stack = (s.pc + 2) :: s.stack ∧ t.pc = s.val a

/-- 43_control.md (R76; decisions D10, D24). -/
def Obligations.RetPopsItsTargetOrHalts : Prop :=
  (∀ (s : State) (v : Word) (rest : List Word), s.stack = v :: rest →
    ∃ t, exec .ret s = .next t ∧ t.result = some .done ∧ t.pc = v ∧ t.stack = rest) ∧
  (∀ s : State, s.stack = [] →
    ∃ t, exec .ret s = .next t ∧ t.result = some .halt ∧ t.status = .halted ∧ t.pc = s.pc ∧ t.stack = [])

/-- 44_arith_logic.md, add (R79): the encoding, and the sum of the rule's pseudocode over the numbers 0 to 65535, with no failure of its own; adding 32767 subtracts 1 modulo
32768. The failures of its decode are stated in FirstBadOperandWordIsReported and FetchPastTheStoreFails. -/
def Obligations.AddWrapsAndClearsBitFifteen : Prop :=
  ∀ (s : State) (a : RegIdx) (b c : Src),
    encode (.add a b c) = [9, encodeSrc (.reg a), encodeSrc b, encodeSrc c] ∧
    ∃ t, exec (.add a b c) s = .next t ∧ t.result = some .done ∧ t.pc = s.pc + 4 ∧
      (t.reg a).toNat = ((s.val b).toNat + (s.val c).toNat) % 65536 &&& 0x7FFF ∧
      ((s.val b).toNat < 32768 → (s.val c).toNat = 32767 → ((t.reg a).toNat + 1) % 32768 = (s.val b).toNat)

/-- 44_arith_logic.md section 'laws of the ALU' (R78) and R80, R82, R83, R84 (operand kinds by decision D2; the reading modulo 2^15 is derived in the spec): add, mult and not are below
32768, and and or keep bit 15. -/
def Obligations.AluLawsOnNumbers : Prop :=
  ∀ (s : State) (a : RegIdx) (b c : Src),
    (∃ t, exec (.add a b c) s = .next t ∧ t.result = some .done ∧ t.pc = s.pc + 4 ∧
      (t.reg a).toNat = ((s.val b).toNat + (s.val c).toNat) % 32768) ∧
    (∃ t, exec (.mult a b c) s = .next t ∧ t.result = some .done ∧ t.pc = s.pc + 4 ∧
      (t.reg a).toNat = (s.val b).toNat * (s.val c).toNat % 65536 &&& 0x7FFF ∧
      (t.reg a).toNat = (s.val b).toNat * (s.val c).toNat % 32768) ∧
    (∃ t, exec (.and a b c) s = .next t ∧ t.result = some .done ∧ t.pc = s.pc + 4 ∧
      (t.reg a).toNat = (s.val b).toNat &&& (s.val c).toNat) ∧
    (∃ t, exec (.or a b c) s = .next t ∧ t.result = some .done ∧ t.pc = s.pc + 4 ∧
      (t.reg a).toNat = (s.val b).toNat ||| (s.val c).toNat) ∧
    (∃ t, exec (.not a b) s = .next t ∧ t.result = some .done ∧ t.pc = s.pc + 3 ∧
      (t.reg a).toNat = 32767 - (s.val b).toNat % 32768)

/-- 44_arith_logic.md (R81): the unsigned remainder, not masked. ModByZero for a zero divisor is the spec's decision D7. -/
def Obligations.ModIsTheUnsignedRemainder : Prop :=
  ∀ (s : State) (a : RegIdx) (b c : Src),
    ((s.val c).toNat ≠ 0 → ∃ t, exec (.mod a b c) s = .next t ∧ t.result = some .done ∧ t.pc = s.pc + 4 ∧
      (t.reg a).toNat = (s.val b).toNat % (s.val c).toNat) ∧
    ((s.val c).toNat = 0 → ∃ t, exec (.mod a b c) s = .next t ∧ FailsWith 9 0 s t)

/-- R85: one addressing mode, absolute through a value. The address is the operand's value unchanged; in bounds a whole word moves and no base register is
updated; at 32768 and more the access fails with InvalidAddress of that address. -/
def Obligations.DataAddressIsTheOperandsValue : Prop :=
  ∀ (s : State) (a : RegIdx) (b c : Src), Memory.wf s.mem = true →
    ((s.val b).toNat < 32768 →
      (∃ t, exec (.rmem a b) s = .next t ∧ t.result = some .done ∧ t.pc = s.pc + 3 ∧
        t.reg a = readWord s.mem (s.val b).toNat ∧ ∀ r, r ≠ a → t.reg r = s.reg r) ∧
      (∃ t, exec (.wmem b c) s = .next t ∧ t.result = some .done ∧ t.pc = s.pc + 3 ∧
        readWord t.mem (s.val b).toNat = s.val c ∧ ∀ r, t.reg r = s.reg r)) ∧
    (32768 ≤ (s.val b).toNat →
      exec (.rmem a b) s = fail (.invalidAddress (s.val b)) s ∧ exec (.wmem b c) s = fail (.invalidAddress (s.val b)) s)

/-- 46_io.md (R88, R90, R91): a valid byte that the sink takes. The mask is the spec's decision D8, the handshake D17, the operand kind D2. -/
def Obligations.OutGivesOneByte : Prop :=
  ∀ (s : State) (a : Src), (s.val a).toNat ≤ 255 → s.env.outNow = .ready →
    ∃ t b, exec (.out a) s = .next t ∧ t.result = some .done ∧ t.pc = s.pc + 2 ∧
      b.toNat = (s.val a).toNat ∧ t.env.outGiven = s.env.outGiven ++ [b]

/-- 46_io.md (R88, R91; decisions D8, D17): the validity check comes before the port, then the port's error or its wait. -/
def Obligations.OutChecksTheWordBeforeThePort : Prop :=
  ∀ (s : State) (a : Src),
    (255 < (s.val a).toNat → ∃ t, exec (.out a) s = .next t ∧ FailsWith 7 (s.val a) s t ∧ t.env = s.env) ∧
    ((s.val a).toNat ≤ 255 → s.env.outNow = .error → ∃ t, exec (.out a) s = .next t ∧ FailsWith 8 0 s t) ∧
    ((s.val a).toNat ≤ 255 → s.env.outNow = .notReady →
      ∃ t, exec (.out a) s = .next t ∧ Stalls s t ∧ SameTraffic s t)

/-- 46_io.md (R89, R92; decisions D2, D16): a byte other than carriage return is taken and stored zero-extended. -/
def Obligations.InStoresTheByte : Prop :=
  ∀ (s : State) (a : RegIdx) (b : Byte), s.env.inNow = .byte b → b.toNat ≠ 13 →
    ∃ t, exec (.inp a) s = .next t ∧ t.result = some .done ∧ t.pc = s.pc + 2 ∧
      (t.reg a).toNat = b.toNat ∧ t.env.inTaken = s.env.inTaken ++ [b]

/-- 46_io.md (R89, R92; decision D16): a carriage return is consumed and the step stalls; with no byte nothing is consumed; an error, the end of input among them, is IOError. -/
def Obligations.InDiscardsCarriageReturns : Prop :=
  ∀ (s : State) (a : RegIdx),
    (s.env.inNow = .byte 13 → ∃ t, exec (.inp a) s = .next t ∧ Stalls s t ∧ t.env.inTaken = s.env.inTaken ++ [13]) ∧
    (s.env.inNow = .none → ∃ t, exec (.inp a) s = .next t ∧ Stalls s t ∧ SameTraffic s t) ∧
    (s.env.inNow = .error → ∃ t, exec (.inp a) s = .next t ∧ FailsWith 8 0 s t)

/-! ## Frames and whole-machine rules -/

/-- R9, over all 22 instructions: every register can be read; the twelve named instructions, each of which can change any register, write the register they
name and no other; the rest write none; a step changes a register only by executing one of the twelve; and the host writes the register it names and no other. -/
def Obligations.OnlyTheDestinationRegisterIsWritten : Prop :=
  (∀ (s : State) (r : RegIdx), s.val (.reg r) = s.reg r) ∧
  (∀ i : Instr, i.destination.isSome = true ↔ i.opcode ∈ [1, 3, 4, 5, 9, 10, 11, 12, 13, 14, 15, 20]) ∧
  (∀ (i : Instr) (s t : State), exec i s = .next t → ∀ r, i.destination ≠ some r → t.reg r = s.reg r) ∧
  (∀ (n : Nat) (r : RegIdx), n ∈ [1, 3, 4, 5, 9, 10, 11, 12, 13, 14, 15, 20] →
    ∃ (i : Instr) (s t : State), i.opcode = n ∧ i.destination = some r ∧ exec i s = .next t ∧ t.reg r ≠ s.reg r) ∧
  (∀ s t : State, step s = .next t → ∀ r, t.reg r ≠ s.reg r → ∃ i, s.executing = some i ∧ i.destination = some r) ∧
  (∀ (p : HostPins) (s : State) (r : RegIdx), p.reg.map Prod.fst ≠ some r → (hostAccess p s).reg r = s.reg r) ∧
  (∀ (p : HostPins) (s : State) (r : RegIdx) (v : Word), p.reg = some (r, v) → (hostAccess p s).reg r = v)

/-- 45_memory_access.md (R87), 20_memory.md section 4 (R38): wmem stores the two bytes of one word at the address its meaning uses, and no other byte of memory changes; every other
instruction leaves all of memory as it was. The premise is the memory's canonical form, an invariant (StepKeepsTheInvariant). -/
def Obligations.OnlyWmemStoresAndOnlyOneWord : Prop :=
  ∀ (i : Instr) (s t : State), Memory.wf s.mem = true → exec i s = .next t →
    (∀ a b, i = .wmem a b → (s.address a).toNat < 32768 →
      ∀ c, c ≠ 2 * (s.address a).toNat → c ≠ 2 * (s.address a).toNat + 1 → readCell t.mem c = readCell s.mem c) ∧
    (∀ a b, i = .wmem a b → 32768 ≤ (s.address a).toNat → ∀ c, readCell t.mem c = readCell s.mem c) ∧
    ((∀ a b, i ≠ .wmem a b) → ∀ c, readCell t.mem c = readCell s.mem c)

/-- 10_state.md sections 5 and 6 (R16, R17, R15): only push, pop, call and ret touch the stack, only halt and a ret on the empty stack change status, and no instruction changes the capacity. -/
def Obligations.StackAndStatusFrame : Prop :=
  ∀ (i : Instr) (s t : State), exec i s = .next t →
    ((∀ a, i ≠ .push a) → (∀ a, i ≠ .pop a) → (∀ a, i ≠ .call a) → i ≠ .ret → t.stack = s.stack) ∧
    (i ≠ .halt → (i = .ret → s.stack ≠ []) → t.status = s.status) ∧
    t.stackCap = s.stackCap

/-- 10_state.md section 6 (R17; decision D12): what an instruction that completes leaves of the fault report, and that it records nothing of its own. -/
def Obligations.CompletingInstructionOnlyClearsFaultValid : Prop :=
  ∀ (i : Instr) (s t : State), exec i s = .next t → (t.result = some .done ∨ t.result = some .halt) →
    t.report.valid = false ∧ t.report.code = s.report.code ∧ t.report.info = s.report.info ∧
      t.report.pc = s.report.pc ∧ t.report.seen = s.report.seen

/-- 46_io.md (R88, R89), 60_exceptions.md section 6 (R105): only in and out reach the ports. The environment fields are the model's own (log 3, log 4, log 5). -/
def Obligations.OnlyInAndOutReachThePorts : Prop :=
  ∀ (i : Instr) (s t : State), exec i s = .next t →
    ((∀ a, i ≠ .out a) → (∀ a, i ≠ .inp a) → t.env = s.env) ∧
    (∀ a, i = .out a → t.env.inSched = s.env.inSched ∧ t.env.inIdle = s.env.inIdle ∧ t.env.inTaken = s.env.inTaken) ∧
    (∀ a, i = .inp a → t.env.outSched = s.env.outSched ∧ t.env.outIdle = s.env.outIdle ∧ t.env.outGiven = s.env.outGiven)

/-- 10_state.md section 3 (R12), 43_control.md (R77, derived in the spec): an instruction that completes and is no transfer goes on at the address after it, and one that fails, stalls or halts keeps pc. -/
def Obligations.CompletingNonTransferAdvancesByItsLength : Prop :=
  ∀ (i : Instr) (s t : State), exec i s = .next t →
    (t.result = some .done → i.opcode ∉ [6, 7, 8, 17, 18] → t.pc = s.pc + BitVec.ofNat 16 i.length) ∧
    (t.result ≠ some .done → t.pc = s.pc)

/-- 60_exceptions.md section 1 (R94, codes by decision D12), 43_control.md (R76): each execution failure comes from its own instructions, for its own cause, with its own info. -/
def Obligations.ExecutionFailuresHaveTheirOwnCauses : Prop :=
  ∀ (i : Instr) (s t : State) (c : BitVec 4) (w : Word), exec i s = .next t → t.result = some (.fault c w) →
    (c = 5 ∧ w = 0 ∧ s.stack = [] ∧ ∃ a, i = .pop a) ∨
    (c = 6 ∧ 32768 ≤ w.toNat ∧ ((∃ a b, i = .rmem a b ∧ w = s.val b) ∨ (∃ a b, i = .wmem a b ∧ w = s.val a))) ∨
    (c = 7 ∧ 255 < w.toNat ∧ ∃ a, i = .out a ∧ w = s.val a) ∨
    (c = 8 ∧ w = 0 ∧ ((∃ a, i = .out a ∧ s.env.outNow = .error) ∨ (∃ a, i = .inp a ∧ s.env.inNow = .error))) ∨
    (c = 9 ∧ w = 0 ∧ ∃ a b d, i = .mod a b d ∧ s.val d = 0) ∨
    (c = 10 ∧ w = 0 ∧ s.stackCap = some s.stack.length ∧ ∃ a, i = .push a ∨ i = .call a)

/-- 60_exceptions.md section 3 (R100, decision D6): a push or call on a full finite stack fails with StackOverflow and changes neither stack nor pc, and with an unbounded stack none does. -/
def Obligations.FullFiniteStackOverflows : Prop :=
  ∀ (s : State) (a : Src),
    (s.stackCap = some s.stack.length →
      (∃ t, exec (.push a) s = .next t ∧ FailsWith 10 0 s t) ∧ (∃ t, exec (.call a) s = .next t ∧ FailsWith 10 0 s t)) ∧
    (s.stackCap = none → ∀ (i : Instr) (t : State), exec i s = .next t → ∀ w, t.result ≠ some (.fault 10 w))

/-- R114, and 20_memory.md section 8 for the host: a write of the word store, by wmem or by the host, is what a fetch of that word from the state after it reads; each decode depends on the word
store and pc alone. The premise is the memory's canonical form. -/
def Obligations.WritesAreFetchedByTheNextStep : Prop :=
  (∀ (s t : State) (a b : Src), Memory.wf s.mem = true → (s.val a).toNat < 32768 → exec (.wmem a b) s = .next t →
    ∀ n p k, k < n → p + k = (s.val a).toNat → (fetchWords t.mem n p)[k]? = some (s.val b)) ∧
  (∀ (s : State) (p : HostPins) (a : BitVec 15) (v : Word), Memory.wf s.mem = true → p.mem = some (a, v) →
    ∀ n q k, k < n → q + k = a.toNat → (fetchWords (hostAccess p s).mem n q)[k]? = some v) ∧
  (∀ s t : State, t.pc = s.pc → t.mem = s.mem → decodeAt t = decodeAt s)

/-- 20_memory.md section 7 (R42): an rmem after a wmem to the same address reads the value written, and reads of other addresses are as before. -/
def Obligations.RmemAfterWmemReadsTheWrite : Prop :=
  ∀ (s t : State) (a b e : Src) (d : RegIdx), Memory.wf s.mem = true → (s.val a).toNat < 32768 → exec (.wmem a b) s = .next t →
    (t.val e = s.val a → ∃ u, exec (.rmem d e) t = .next u ∧ u.reg d = s.val b) ∧
    (t.val e ≠ s.val a → (t.val e).toNat < 32768 →
      ∃ u, exec (.rmem d e) t = .next u ∧ u.reg d = readWord s.mem (t.val e).toNat)

/-- 43_control.md (R75, R76; decision D2): ret undoes call, with pc at the address after the call and the stack as it was. -/
def Obligations.RetReturnsAfterTheCall : Prop :=
  ∀ (s t : State) (a : Src), exec (.call a) s = .next t → t.result = some .done →
    ∃ u, exec .ret t = .next u ∧ u.result = some .done ∧ u.pc = s.pc + 2 ∧ u.stack = s.stack ∧ u.regs = s.regs ∧ u.mem = s.mem

/-- 10_state.md section 7 (R19): two canonical memories that agree on the 32,768 words of the store are the same list (log 1). -/
def Obligations.CanonicalMemoryIsDeterminedByItsWords : Prop :=
  ∀ m m' : Memory, Memory.wf m = true → Memory.wf m' = true →
    (∀ a, a < 32768 → readWord m a = readWord m' a) → m = m'

/-- Every step keeps the invariant: the store stays 32,768 words in canonical form (R19), the stack keeps to STACK_CAP (R16, R100), and the fault report stays consistent (R17, R94). -/
def Obligations.StepKeepsTheInvariant : Prop := ∀ s t : State, s.Inv → step s = .next t → t.Inv

/-- So does every clock edge, with reset, steps and host access in any order (R28, R31, R109). Three cases are the model's choice and no rule's: a host push on a full finite
stack changes nothing (log 7), and host pins have no effect beside `rst` = 1 or beside `run_en` = 1 (log 10). -/
def Obligations.EveryClockEdgeKeepsTheInvariant : Prop :=
  ∀ (c : CycleIn) (s t : State), s.Inv → cycle c s = .next t → t.Inv

/-- The invariant holds after reset (R109). -/
def Obligations.ResetMeetsTheInvariant : Prop := State.reset.Inv

/-- 30_encoding.md section 9 (R62, decision D20): assembling what the disassembler shows gives the instruction back, whichever operands are shown by a label. -/
def Obligations.AssemblingTheTokensGivesTheInstruction : Prop :=
  ∀ (i : Instr) (labels : Nat → Option Text), i.wf = true →
    assemble (mnemonicOf i) (instrTokens labels i) = some i

/-! ## Reset, load, host access and ports -/

/-- 70_reset_and_hazards.md section 1 (R109; decisions D3, D4, D5, D12), with the reference value of STACK_CAP (R5). -/
def Obligations.ResetValuesOfTheCore : Prop :=
  (∀ r : RegIdx, State.reset.reg r = 0) ∧ (∀ a, readWord State.reset.mem a = 0) ∧ State.reset.pc = 0 ∧
  State.reset.stack = [] ∧ State.reset.status = .running ∧
  State.reset.report = { valid := false, code := 0, info := 0, pc := 0, seen := false } ∧ State.reset.stackCap = none

/-- 70_reset_and_hazards.md section 1 (R109; decision D16 for the ports): `rst` puts the core in the reset state from any state, whatever `run_en` is
(R28), and leaves the ports' environment alone. That host pins driven beside it have no effect is the model's choice (log 10). -/
def Obligations.ResetPinResetsTheCoreNotThePorts : Prop :=
  ∀ (c : CycleIn) (s : State), c.rst = true →
    ∃ t, cycle c s = .next t ∧ SameCore { State.reset with stackCap := s.stackCap } t ∧
      t.report = State.reset.report ∧ t.env = s.env

/-- R111: the two failing loads, which write nothing, and that no other load fails. An image of both kinds fails under one of the two names (which: log 9). -/
def Obligations.BadImagesDoNotLoad : Prop :=
  ∀ (bytes : List Byte) (s : State),
    (bytes.length % 2 = 1 → bytes.length ≤ 65536 → loadImage bytes s = .error .badBinary) ∧
    (bytes.length % 2 = 0 → 65536 < bytes.length → loadImage bytes s = .error .programTooLarge) ∧
    ((bytes.length % 2 = 1 ∨ 65536 < bytes.length) → ∃ e, loadImage bytes s = .error e) ∧
    (bytes.length % 2 = 0 → bytes.length ≤ 65536 → ∃ t, loadImage bytes s = .ok t)

/-- 70_reset_and_hazards.md section 2 (R110; decision D22): word k is byte[2k+1] above byte[2k], the words past the image stay, and nothing but the word store is written.
R110 gives the load of a store that is all 0; that a load of any other store keeps its words past the image is the model's choice (log 16). -/
def Obligations.ImageLoadsAsLittleEndianWords : Prop :=
  ∀ (bytes : List Byte) (s t : State), Memory.wf s.mem = true → loadImage bytes s = .ok t →
    (∀ k lo hi, bytes[2 * k]? = some lo → bytes[2 * k + 1]? = some hi → readWord t.mem k = hi ++ lo) ∧
    (∀ k, bytes.length ≤ 2 * k → readWord t.mem k = readWord s.mem k) ∧
    t = { s with mem := t.mem }

/-- 10_state.md section 11 (R31, R32; decision D19): what the host's pins write, that a pop of an empty stack changes nothing, and that pc, status and the report are out of its reach. -/
def Obligations.HostAccessWritesWhatItNames : Prop :=
  ∀ (p : HostPins) (s : State), Memory.wf s.mem = true →
    (∀ i v, p.reg = some (i, v) → (hostAccess p s).reg i = v) ∧
    (∀ a v, p.mem = some (a, v) → ∀ k, readWord (hostAccess p s).mem k = if k = a.toNat then v else readWord s.mem k) ∧
    (∀ v, p.stk = some (.push v) → s.stackCap ≠ some s.stack.length → (hostAccess p s).stack = v :: s.stack) ∧
    (p.stk = some .pop → (hostAccess p s).stack = s.stack.tail) ∧
    (p.reg = none → (hostAccess p s).regs = s.regs) ∧ (p.mem = none → (hostAccess p s).mem = s.mem) ∧
    (p.stk = none → (hostAccess p s).stack = s.stack) ∧
    (hostAccess p s).pc = s.pc ∧ (hostAccess p s).status = s.status ∧ (hostAccess p s).report = s.report

/-- 10_state.md section 9 (R27, R28), 30_encoding.md section 5 (R58, decision D21): the peek outputs are the decoder's answer at pc; a valid one has length 1 to 4, opcode 0 to 21 and the next address; an
invalid one has code 1 to 4 and zeros. -/
def Obligations.PeekShowsTheDecodersAnswer : Prop :=
  ∀ s : State,
    s.peek = decoderPortsOf (decodeAt s) ∧
    (s.peek.valid = true → s.peek.err = 0 ∧ s.peek.opcode.toNat ≤ 21 ∧ 1 ≤ s.peek.len.toNat ∧ s.peek.len.toNat ≤ 4 ∧
      s.peek.next.toNat = s.pc.toNat + s.peek.len.toNat) ∧
    (s.peek.valid = false → 1 ≤ s.peek.err.toNat ∧ s.peek.err.toNat ≤ 4 ∧ s.peek.opcode = 0 ∧ s.peek.len = 0 ∧ s.peek.next = 0)

/-- 10_state.md section 10 (R28), 46_io.md section 1 (R88, R89; decisions D16, D17): in_take and out_valid in a step's cycle are the bytes that step moves. -/
def Obligations.PortSignalsAreTheBytesMoved : Prop :=
  ∀ s t : State, step s = .next t →
    t.env.inTaken = s.env.inTaken ++ s.inTake.toList ∧
    (s.env.outNow = .ready → t.env.outGiven = s.env.outGiven ++ s.outOffer.toList) ∧
    (s.env.outNow ≠ .ready → t.env.outGiven = s.env.outGiven)

/-- 10_state.md section 10 (R28; handshakes by decisions D16, D17): on every clock edge the bytes that pass the ports are those in_take and out_valid show in that cycle, and in a cycle
without a step (`run_en` = 0 or `rst` = 1) both are 0 and no byte passes. The records of bytes are the model's own (log 5). -/
def Obligations.PortOutputsAreTheBytesOfTheCycle : Prop :=
  ∀ (c : CycleIn) (s t : State), cycle c s = .next t →
    t.env.inTaken = s.env.inTaken ++ (s.inPort c).toList ∧
    t.env.outGiven = s.env.outGiven ++ (if s.env.outNow = .ready then (s.outPort c).toList else []) ∧
    ((s.corePorts c).inTake = true ↔ t.env.inTaken ≠ s.env.inTaken) ∧
    ((c.runEn = false ∨ c.rst = true) →
      (s.corePorts c).inTake = false ∧ (s.corePorts c).outValid = false ∧ t.env = s.env)
end

