-- ==== Sys2Proof/Laws/Decode.lean ====
section
/-! SUPPORT. The decoder's parts, one lemma each. -/

namespace Sys2Proof

theorem tagBit_eq (w : Word) : w.getLsbD 15 = decide (32768 ≤ w.toNat) := by
  have h : w.msb = w.getLsbD 15 := BitVec.msb_eq_getLsbD_last w
  rw [← h, BitVec.msb_eq_decide]

theorem nonIndexBits_eq_zero_iff (w : Word) : nonIndexBits w = 0 ↔ w.toNat / 8 % 4096 = 0 := by
  rw [← BitVec.toNat_inj]
  simp [nonIndexBits, BitVec.extractLsb'_toNat, Nat.shiftRight_eq_div_pow]

theorem indexBits_val (w : Word) : (indexBits w).val = w.toNat % 8 := by
  simp [indexBits, BitVec.extractLsb'_toNat]

theorem tagBit_of_ge {w : Word} (h : 32768 ≤ w.toNat) : w.getLsbD 15 = true := by
  rw [tagBit_eq, decide_eq_true_eq]
  exact h

/-- R50, R51 over the numbers. -/
theorem decodeSrc_literal {w : Word} (h : w.toNat < 32768) : decodeSrc w = .ok (.imm w) := by
  rw [decodeSrc, if_pos]
  rw [tagBit_eq, decide_eq_false_iff_not]
  omega

theorem decodeSrc_register {w : Word} (h : 32768 ≤ w.toNat) (h' : w.toNat < 32776) :
    decodeSrc w = .ok (.reg (indexBits w)) := by
  have h1 : nonIndexBits w = 0 := (nonIndexBits_eq_zero_iff w).2 (by omega)
  rw [decodeSrc, if_neg (by rw [tagBit_of_ge h]; decide), if_pos h1]

theorem decodeSrc_invalid {w : Word} (h : 32776 ≤ w.toNat) : decodeSrc w = .error (.invalidSrcOperand w) := by
  have hw := w.isLt
  have h1 : ¬nonIndexBits w = 0 := fun e => by
    have := (nonIndexBits_eq_zero_iff w).1 e
    omega
  rw [decodeSrc, if_neg (by rw [tagBit_of_ge (by omega)]; decide), if_neg h1]

/-- R52 over the numbers. -/
theorem decodeDst_register {w : Word} (h : 32768 ≤ w.toNat) (h' : w.toNat < 32776) :
    decodeDst w = .ok (indexBits w) := by
  have h1 : nonIndexBits w = 0 := (nonIndexBits_eq_zero_iff w).2 (by omega)
  rw [decodeDst, if_pos ⟨tagBit_of_ge h, h1⟩]

theorem decodeDst_invalid {w : Word} (h : w.toNat < 32768 ∨ 32776 ≤ w.toNat) :
    decodeDst w = .error (.invalidDstOperand w) := by
  have hw := w.isLt
  have : ¬(w.getLsbD 15 = true ∧ nonIndexBits w = 0) := by
    rintro ⟨h1, h2⟩
    rw [tagBit_eq, decide_eq_true_eq] at h1
    have := (nonIndexBits_eq_zero_iff w).1 h2
    omega
  rw [decodeDst, if_neg this]

/-! ## Encoding one operand -/

theorem encodeSrc_reg_toNat (i : RegIdx) : (encodeSrc (.reg i)).toNat = 32768 + i.val := by
  have := i.isLt
  simp [encodeSrc]
  omega

theorem indexBits_encodeSrc (i : RegIdx) : indexBits (encodeSrc (.reg i)) = i := by
  have h := encodeSrc_reg_toNat i
  have hi := i.isLt
  apply Fin.ext
  rw [indexBits_val, h]
  omega

@[simp] theorem decodeDst_encode (i : RegIdx) : decodeDst (encodeSrc (.reg i)) = .ok i := by
  have h := encodeSrc_reg_toNat i
  have hi := i.isLt
  rw [decodeDst_register (by omega) (by omega), indexBits_encodeSrc]

theorem decodeSrc_encode {o : Src} (h : o.wf = true) : decodeSrc (encodeSrc o) = .ok o := by
  cases o with
  | imm n => exact decodeSrc_literal (by simpa [Src.wf, encodeSrc] using h)
  | reg i =>
    have h := encodeSrc_reg_toNat i
    have hi := i.isLt
    rw [decodeSrc_register (by omega) (by omega), indexBits_encodeSrc]

theorem encodeSrc_imm (n : Word) : encodeSrc (.imm n) = n := rfl

theorem encodeSrc_indexBits {w : Word} (h : 32768 ≤ w.toNat) (h' : w.toNat < 32776) :
    encodeSrc (.reg (indexBits w)) = w := by
  apply BitVec.eq_of_toNat_eq
  rw [encodeSrc_reg_toNat, indexBits_val]
  omega

/-- What decodes as a Source is the encoding of a well-formed operand. -/
theorem decodeSrc_eq_ok {w : Word} {o : Src} (h : decodeSrc w = .ok o) : o.wf = true ∧ w = encodeSrc o := by
  rcases Nat.lt_or_ge w.toNat 32768 with h1 | h1
  · rw [decodeSrc_literal h1, Except.ok.injEq] at h
    subst h
    simpa [Src.wf, encodeSrc] using h1
  · rcases Nat.lt_or_ge w.toNat 32776 with h2 | h2
    · rw [decodeSrc_register h1 h2, Except.ok.injEq] at h
      subst h
      exact ⟨rfl, (encodeSrc_indexBits h1 h2).symm⟩
    · rw [decodeSrc_invalid h2] at h
      cases h

/-- What decodes as a Destination is the encoding of a register. -/
theorem decodeDst_eq_ok {w : Word} {d : RegIdx} (h : decodeDst w = .ok d) : w = encodeSrc (.reg d) := by
  by_cases h1 : w.toNat < 32768 ∨ 32776 ≤ w.toNat
  · rw [decodeDst_invalid h1] at h
    cases h
  · rw [decodeDst_register (by omega) (by omega), Except.ok.injEq] at h
    subst h
    exact (encodeSrc_indexBits (by omega) (by omega)).symm

/-! ## One word at a time -/

@[simp] theorem nextWord_nil (q : Nat) (k : Word → List Word → Decoded) :
    nextWord q [] k = .error (.invalidIp (BitVec.ofNat 16 q)) := rfl

@[simp] theorem nextWord_cons (q : Nat) (w : Word) (ws : List Word) (k : Word → List Word → Decoded) :
    nextWord q (w :: ws) k = k w ws := rfl

theorem nextSrc_ok {q : Nat} {w : Word} {ws : List Word} {o : Src} {k : Src → List Word → Decoded}
    (h : decodeSrc w = .ok o) : nextSrc q (w :: ws) k = k o ws := by
  simp [nextSrc, h]

theorem nextDst_ok {q : Nat} {w : Word} {ws : List Word} {d : RegIdx} {k : RegIdx → List Word → Decoded}
    (h : decodeDst w = .ok d) : nextDst q (w :: ws) k = k d ws := by
  simp [nextDst, h]

theorem nextSrc_bad {q : Nat} {w : Word} {ws : List Word} {k : Src → List Word → Decoded} (h : 32776 ≤ w.toNat) :
    nextSrc q (w :: ws) k = .error (.invalidSrcOperand w) := by
  simp [nextSrc, decodeSrc_invalid h]

theorem nextDst_bad {q : Nat} {w : Word} {ws : List Word} {k : RegIdx → List Word → Decoded}
    (h : w.toNat < 32768 ∨ 32776 ≤ w.toNat) : nextDst q (w :: ws) k = .error (.invalidDstOperand w) := by
  simp [nextDst, decodeDst_invalid h]

@[simp] theorem nextSrc_nil (q : Nat) (k : Src → List Word → Decoded) :
    nextSrc q [] k = .error (.invalidIp (BitVec.ofNat 16 q)) := rfl

@[simp] theorem nextDst_nil (q : Nat) (k : RegIdx → List Word → Decoded) :
    nextDst q [] k = .error (.invalidIp (BitVec.ofNat 16 q)) := rfl

/-- A Source operand that decodes: the word there is its encoding. -/
theorem nextSrc_eq_ok {q : Nat} {ws : List Word} {k : Src → List Word → Decoded} {r : Instr × Word}
    (h : nextSrc q ws k = .ok r) : ∃ o rest, o.wf = true ∧ ws = encodeSrc o :: rest ∧ k o rest = .ok r := by
  cases ws with
  | nil => simp at h
  | cons w rest =>
    unfold nextSrc at h
    rw [nextWord_cons] at h
    split at h
    · cases h
    · next o ho =>
      obtain ⟨h1, h2⟩ := decodeSrc_eq_ok ho
      exact ⟨o, rest, h1, by rw [h2], h⟩

/-- A Destination operand that decodes: the word there is its encoding. -/
theorem nextDst_eq_ok {q : Nat} {ws : List Word} {k : RegIdx → List Word → Decoded} {r : Instr × Word}
    (h : nextDst q ws k = .ok r) : ∃ d rest, ws = encodeSrc (.reg d) :: rest ∧ k d rest = .ok r := by
  cases ws with
  | nil => simp at h
  | cons w rest =>
    unfold nextDst at h
    rw [nextWord_cons] at h
    split at h
    · cases h
    · next d hd => exact ⟨d, rest, by rw [decodeDst_eq_ok hd], h⟩

/-- A word below 22 has a row in the opcode map, and a greater one has none. -/
theorem opcodeMap_length : opcodeMap.length = 22 := rfl

end Sys2Proof
end

