-- ==== Sys2Proof/Laws/Memory.lean ====
section
/-! SUPPORT. The laws of the memory operations: a read after a write, the canonical form, and that it determines the list. -/

namespace Sys2Proof.Machine

namespace Memory

/-! ## The canonical form -/

theorem wfFrom_cons {lo k : Nat} {b : Byte} {m : Memory} :
    wfFrom lo ((k, b) :: m) = true ↔ lo ≤ k ∧ k < 2 * Config.memWords ∧ b ≠ unlisted ∧ wfFrom (k + 1) m = true := by
  simp [wfFrom, and_assoc]

theorem wfFrom_mono {lo lo' : Nat} {m : Memory} (h : wfFrom lo m = true) (hle : lo' ≤ lo) : wfFrom lo' m = true := by
  cases m with
  | nil => rfl
  | cons p m =>
    obtain ⟨k, b⟩ := p
    rw [wfFrom_cons] at h ⊢
    exact ⟨hle.trans h.1, h.2⟩

theorem wfFrom_listCell {lo a : Nat} {v : Byte} {m : Memory} (hm : wfFrom (a + 1) m = true) (hlo : lo ≤ a)
    (ha : a < 2 * Config.memWords) : wfFrom lo (listCell a v m) = true := by
  unfold listCell
  split
  · exact wfFrom_mono hm (by omega)
  · next hv => exact wfFrom_cons.2 ⟨hlo, ha, hv, hm⟩

theorem wfFrom_writeCell {lo a : Nat} {v : Byte} {m : Memory} (hm : wfFrom lo m = true) (hlo : lo ≤ a)
    (ha : a < 2 * Config.memWords) : wfFrom lo (writeCell m a v) = true := by
  induction m generalizing lo with
  | nil => exact wfFrom_listCell rfl hlo ha
  | cons p m ih =>
    obtain ⟨k, b⟩ := p
    obtain ⟨h1, h2, h3, h4⟩ := wfFrom_cons.1 hm
    unfold writeCell
    split
    · next hlt => exact wfFrom_listCell (wfFrom_cons.2 ⟨hlt, h2, h3, h4⟩) hlo ha
    · split
      · next heq => subst heq; exact wfFrom_listCell h4 hlo ha
      · next hlt hne => exact wfFrom_cons.2 ⟨h1, h2, h3, ih h4 (by omega)⟩

/-! ## Reading -/

theorem readCell_below {lo a : Nat} {m : Memory} (hm : wfFrom lo m = true) (ha : a < lo) : readCell m a = unlisted := by
  induction m generalizing lo with
  | nil => rfl
  | cons p m ih =>
    obtain ⟨k, b⟩ := p
    obtain ⟨h1, -, -, h4⟩ := wfFrom_cons.1 hm
    rw [readCell, if_neg (by omega)]
    exact ih h4 (by omega)

theorem readCell_listCell {a a' : Nat} {v : Byte} {m : Memory} (hm : wfFrom (a + 1) m = true) :
    readCell (listCell a v m) a' = if a' = a then v else readCell m a' := by
  unfold listCell
  split
  · next hv =>
    split
    · next h => rw [h, readCell_below hm (by omega), hv]
    · rfl
  · rfl

/-- A read after a write of one byte. -/
theorem readCell_writeCell {lo a a' : Nat} {v : Byte} {m : Memory} (hm : wfFrom lo m = true) :
    readCell (writeCell m a v) a' = if a' = a then v else readCell m a' := by
  induction m generalizing lo with
  | nil => exact readCell_listCell rfl
  | cons p m ih =>
    obtain ⟨k, b⟩ := p
    obtain ⟨h1, h2, h3, h4⟩ := wfFrom_cons.1 hm
    unfold writeCell
    split
    · next hlt => exact readCell_listCell (wfFrom_cons.2 ⟨hlt, h2, h3, h4⟩)
    · split
      · next heq =>
        subst heq
        rw [readCell_listCell h4, readCell]
        split <;> rfl
      · next hlt hne =>
        rw [readCell, readCell, ih h4]
        by_cases e : a' = k
        · rw [if_pos e, if_neg (by omega), if_pos e]
        · rw [if_neg e, if_neg e]

/-- Two canonical lists that read the same everywhere are the same list. -/
theorem wfFrom_ext {lo : Nat} {m m' : Memory} (hm : wfFrom lo m = true) (hm' : wfFrom lo m' = true)
    (h : ∀ a, readCell m a = readCell m' a) : m = m' := by
  induction m generalizing lo m' with
  | nil =>
    cases m' with
    | nil => rfl
    | cons p m' =>
      obtain ⟨k, b⟩ := p
      have := h k
      rw [readCell, readCell, if_pos rfl] at this
      exact absurd this.symm (wfFrom_cons.1 hm').2.2.1
  | cons p m ih =>
    obtain ⟨k, b⟩ := p
    obtain ⟨h1, h2, h3, h4⟩ := wfFrom_cons.1 hm
    cases m' with
    | nil =>
      have := h k
      simp only [readCell, if_true] at this
      exact absurd this h3
    | cons p' m' =>
      obtain ⟨k', b'⟩ := p'
      obtain ⟨g1, g2, g3, g4⟩ := wfFrom_cons.1 hm'
      have hk : k = k' := by
        rcases Nat.lt_trichotomy k k' with hlt | heq | hgt
        · have := h k
          rw [readCell, if_pos rfl, readCell, if_neg (by omega), readCell_below g4 (by omega)] at this
          exact absurd this h3
        · exact heq
        · have := h k'
          rw [readCell, if_neg (by omega), readCell_below h4 (by omega), readCell, if_pos rfl] at this
          exact absurd this.symm g3
      subst hk
      have hb : b = b' := by
        have := h k
        rwa [readCell, if_pos rfl, readCell, if_pos rfl] at this
      subst hb
      congr 1
      refine ih h4 g4 fun a => ?_
      by_cases e : a = k
      · rw [readCell_below h4 (by omega), readCell_below g4 (by omega)]
      · have := h a
        rwa [readCell, if_neg e, readCell, if_neg e] at this

/-! ## Words -/

theorem wf_writeWord {m : Memory} {a : Nat} {v : Word} (hm : wf m = true) (ha : a < Config.memWords) :
    wf (writeWord m a v) = true :=
  wfFrom_writeCell (wfFrom_writeCell hm (by omega) (by omega)) (by omega) (by omega)

theorem wf_writeWords {m : Memory} {a : Nat} {vs : List Word} (hm : wf m = true) : wf (writeWords m a vs) = true := by
  induction vs generalizing m a with
  | nil => exact hm
  | cons v vs ih =>
    unfold writeWords
    split
    · next ha => exact ih (wf_writeWord hm ha)
    · exact ih hm

/-- The bytes after a word is stored. -/
theorem readCell_writeWord {m : Memory} {a c : Nat} {v : Word} (hm : wf m = true) (ha : a < Config.memWords) :
    readCell (writeWord m a v) c =
      if c = 2 * a + 1 then v.extractLsb' 8 8 else if c = 2 * a then v.extractLsb' 0 8 else readCell m c := by
  unfold writeWord
  rw [readCell_writeCell (wfFrom_writeCell hm (Nat.zero_le _) (by omega)), readCell_writeCell hm]

theorem append_bytes (v : Word) : v.extractLsb' 8 8 ++ v.extractLsb' 0 8 = v := by
  apply BitVec.eq_of_getLsbD_eq
  intro i hi
  rw [BitVec.getLsbD_append]
  by_cases h : i < 8
  · simp [h]
  · have : i - 8 < 8 := by omega
    simp [h, this, show 8 + (i - 8) = i by omega]

/-- A read after a write of one word. -/
theorem readWord_writeWord {m : Memory} {a a' : Nat} {v : Word} (hm : wf m = true) (ha : a < Config.memWords) :
    readWord (writeWord m a v) a' = if a' = a then v else readWord m a' := by
  unfold readWord
  rw [readCell_writeWord hm ha, readCell_writeWord hm ha]
  by_cases h : a' = a
  · subst h
    simpa using append_bytes v
  · have h1 : ¬2 * a' + 1 = 2 * a := by omega
    have h2 : ¬2 * a' = 2 * a + 1 := by omega
    simp [h, h1, h2]

theorem readWord_nil (a : Nat) : readWord [] a = 0 := by
  simp only [readWord, readCell, unlisted]; rfl

/-- Storing a list of words: the k-th word stands at address `a + k`. -/
theorem readWord_writeWords {m : Memory} {a a' : Nat} {vs : List Word} (hm : wf m = true)
    (hfit : a + vs.length ≤ Config.memWords) :
    readWord (writeWords m a vs) a' = if h : a ≤ a' ∧ a' - a < vs.length then vs[a' - a]'h.2 else readWord m a' := by
  induction vs generalizing m a with
  | nil => simp [writeWords]
  | cons v vs ih =>
    have hlen : a + 1 + vs.length ≤ Config.memWords := by simp only [List.length_cons] at hfit; omega
    have ha : a < Config.memWords := by omega
    unfold writeWords
    rw [if_pos ha, ih (wf_writeWord hm ha) hlen, readWord_writeWord hm ha]
    rcases Nat.lt_trichotomy a' a with hlt | heq | hgt
    · rw [dif_neg (by omega), if_neg (by omega), dif_neg (by omega)]
    · subst heq
      simp
    · obtain ⟨d, rfl⟩ : ∃ d, a' = a + 1 + d := ⟨a' - a - 1, by omega⟩
      have e1 : a + 1 + d - (a + 1) = d := by omega
      have e2 : a + 1 + d - a = d + 1 := by omega
      have e3 : a + 1 + d ≠ a := by omega
      by_cases hd : d < vs.length
      · rw [dif_pos ⟨by omega, by omega⟩, dif_pos ⟨by omega, by simp only [List.length_cons]; omega⟩]
        simp [e1, e2]
      · rw [dif_neg (by omega), dif_neg (by simp only [List.length_cons]; omega), if_neg e3]

/-! ## Fetch -/

theorem fetchWords_length_le (m : Memory) (n p : Nat) : (fetchWords m n p).length ≤ n := by
  induction n generalizing p with
  | zero => simp [fetchWords]
  | succ n ih =>
    unfold fetchWords
    split
    · simpa using ih (p + 1)
    · simp

/-- The k-th word fetched is the word at address `p + k`, and it is fetched when that address is in the store. -/
theorem fetchWords_getElem? (m : Memory) (n p k : Nat) :
    (fetchWords m n p)[k]? = if k < n ∧ p + k < Config.memWords then some (readWord m (p + k)) else none := by
  induction n generalizing p k with
  | zero => simp [fetchWords]
  | succ n ih =>
    unfold fetchWords
    split
    · next hp =>
      cases k with
      | zero => simp [hp]
      | succ k =>
        have : p + 1 + k = p + (k + 1) := by omega
        simp [ih, this]
    · next hp =>
      rw [if_neg (by omega)]
      rfl

end Memory

end Sys2Proof.Machine
end

