-- ==== Sys2Proof/Laws/State.lean ====
section
/-! SUPPORT. One lemma per field per update of State, so that no proof unfolds a record update. -/

namespace Sys2Proof.Machine

namespace State

variable (s : State)

@[simp] theorem setReg_regs (i : RegIdx) (v : Word) : (s.setReg i v).regs = s.regs.set i v := rfl
@[simp] theorem setReg_mem (i : RegIdx) (v : Word) : (s.setReg i v).mem = s.mem := rfl
@[simp] theorem setReg_stack (i : RegIdx) (v : Word) : (s.setReg i v).stack = s.stack := rfl
@[simp] theorem setReg_pc (i : RegIdx) (v : Word) : (s.setReg i v).pc = s.pc := rfl
@[simp] theorem setReg_status (i : RegIdx) (v : Word) : (s.setReg i v).status = s.status := rfl
@[simp] theorem setReg_report (i : RegIdx) (v : Word) : (s.setReg i v).report = s.report := rfl
@[simp] theorem setReg_stackCap (i : RegIdx) (v : Word) : (s.setReg i v).stackCap = s.stackCap := rfl
@[simp] theorem setReg_env (i : RegIdx) (v : Word) : (s.setReg i v).env = s.env := rfl
@[simp] theorem setReg_result (i : RegIdx) (v : Word) : (s.setReg i v).result = s.result := rfl

@[simp] theorem setMem_regs (m : Memory) : (s.setMem m).regs = s.regs := rfl
@[simp] theorem setMem_mem (m : Memory) : (s.setMem m).mem = m := rfl
@[simp] theorem setMem_stack (m : Memory) : (s.setMem m).stack = s.stack := rfl
@[simp] theorem setMem_pc (m : Memory) : (s.setMem m).pc = s.pc := rfl
@[simp] theorem setMem_status (m : Memory) : (s.setMem m).status = s.status := rfl
@[simp] theorem setMem_report (m : Memory) : (s.setMem m).report = s.report := rfl
@[simp] theorem setMem_stackCap (m : Memory) : (s.setMem m).stackCap = s.stackCap := rfl
@[simp] theorem setMem_env (m : Memory) : (s.setMem m).env = s.env := rfl
@[simp] theorem setMem_result (m : Memory) : (s.setMem m).result = s.result := rfl

@[simp] theorem setStack_regs (st : List Word) : (s.setStack st).regs = s.regs := rfl
@[simp] theorem setStack_mem (st : List Word) : (s.setStack st).mem = s.mem := rfl
@[simp] theorem setStack_stack (st : List Word) : (s.setStack st).stack = st := rfl
@[simp] theorem setStack_pc (st : List Word) : (s.setStack st).pc = s.pc := rfl
@[simp] theorem setStack_status (st : List Word) : (s.setStack st).status = s.status := rfl
@[simp] theorem setStack_report (st : List Word) : (s.setStack st).report = s.report := rfl
@[simp] theorem setStack_stackCap (st : List Word) : (s.setStack st).stackCap = s.stackCap := rfl
@[simp] theorem setStack_env (st : List Word) : (s.setStack st).env = s.env := rfl
@[simp] theorem setStack_result (st : List Word) : (s.setStack st).result = s.result := rfl

@[simp] theorem setPc_regs (p : Word) : (s.setPc p).regs = s.regs := rfl
@[simp] theorem setPc_mem (p : Word) : (s.setPc p).mem = s.mem := rfl
@[simp] theorem setPc_stack (p : Word) : (s.setPc p).stack = s.stack := rfl
@[simp] theorem setPc_pc (p : Word) : (s.setPc p).pc = p := rfl
@[simp] theorem setPc_status (p : Word) : (s.setPc p).status = s.status := rfl
@[simp] theorem setPc_report (p : Word) : (s.setPc p).report = s.report := rfl
@[simp] theorem setPc_stackCap (p : Word) : (s.setPc p).stackCap = s.stackCap := rfl
@[simp] theorem setPc_env (p : Word) : (s.setPc p).env = s.env := rfl
@[simp] theorem setPc_result (p : Word) : (s.setPc p).result = s.result := rfl

@[simp] theorem setStatus_regs (x : Status) : (s.setStatus x).regs = s.regs := rfl
@[simp] theorem setStatus_mem (x : Status) : (s.setStatus x).mem = s.mem := rfl
@[simp] theorem setStatus_stack (x : Status) : (s.setStatus x).stack = s.stack := rfl
@[simp] theorem setStatus_pc (x : Status) : (s.setStatus x).pc = s.pc := rfl
@[simp] theorem setStatus_status (x : Status) : (s.setStatus x).status = x := rfl
@[simp] theorem setStatus_report (x : Status) : (s.setStatus x).report = s.report := rfl
@[simp] theorem setStatus_stackCap (x : Status) : (s.setStatus x).stackCap = s.stackCap := rfl
@[simp] theorem setStatus_env (x : Status) : (s.setStatus x).env = s.env := rfl
@[simp] theorem setStatus_result (x : Status) : (s.setStatus x).result = s.result := rfl

@[simp] theorem setReport_regs (r : FaultReport) : (s.setReport r).regs = s.regs := rfl
@[simp] theorem setReport_mem (r : FaultReport) : (s.setReport r).mem = s.mem := rfl
@[simp] theorem setReport_stack (r : FaultReport) : (s.setReport r).stack = s.stack := rfl
@[simp] theorem setReport_pc (r : FaultReport) : (s.setReport r).pc = s.pc := rfl
@[simp] theorem setReport_status (r : FaultReport) : (s.setReport r).status = s.status := rfl
@[simp] theorem setReport_report (r : FaultReport) : (s.setReport r).report = r := rfl
@[simp] theorem setReport_stackCap (r : FaultReport) : (s.setReport r).stackCap = s.stackCap := rfl
@[simp] theorem setReport_env (r : FaultReport) : (s.setReport r).env = s.env := rfl
@[simp] theorem setReport_result (r : FaultReport) : (s.setReport r).result = s.result := rfl

@[simp] theorem setEnv_regs (e : Env) : (s.setEnv e).regs = s.regs := rfl
@[simp] theorem setEnv_mem (e : Env) : (s.setEnv e).mem = s.mem := rfl
@[simp] theorem setEnv_stack (e : Env) : (s.setEnv e).stack = s.stack := rfl
@[simp] theorem setEnv_pc (e : Env) : (s.setEnv e).pc = s.pc := rfl
@[simp] theorem setEnv_status (e : Env) : (s.setEnv e).status = s.status := rfl
@[simp] theorem setEnv_report (e : Env) : (s.setEnv e).report = s.report := rfl
@[simp] theorem setEnv_stackCap (e : Env) : (s.setEnv e).stackCap = s.stackCap := rfl
@[simp] theorem setEnv_env (e : Env) : (s.setEnv e).env = e := rfl
@[simp] theorem setEnv_result (e : Env) : (s.setEnv e).result = s.result := rfl

@[simp] theorem setResult_regs (r : StepResult) : (s.setResult r).regs = s.regs := rfl
@[simp] theorem setResult_mem (r : StepResult) : (s.setResult r).mem = s.mem := rfl
@[simp] theorem setResult_stack (r : StepResult) : (s.setResult r).stack = s.stack := rfl
@[simp] theorem setResult_pc (r : StepResult) : (s.setResult r).pc = s.pc := rfl
@[simp] theorem setResult_status (r : StepResult) : (s.setResult r).status = s.status := rfl
@[simp] theorem setResult_report (r : StepResult) : (s.setResult r).report = s.report := rfl
@[simp] theorem setResult_stackCap (r : StepResult) : (s.setResult r).stackCap = s.stackCap := rfl
@[simp] theorem setResult_env (r : StepResult) : (s.setResult r).env = s.env := rfl
@[simp] theorem setResult_result (r : StepResult) : (s.setResult r).result = some r := rfl

end State

/-! ## Registers -/

@[simp] theorem State.reg_setReg_same (s : State) (i : RegIdx) (v : Word) : (s.setReg i v).reg i = v := by
  simp [State.reg]

theorem State.reg_setReg_other (s : State) {i j : RegIdx} (v : Word) (h : j ≠ i) : (s.setReg i v).reg j = s.reg j := by
  have : i.val ≠ j.val := fun e => h (Fin.ext e.symm)
  simp [State.reg, this]

theorem State.reg_setReg (s : State) (i j : RegIdx) (v : Word) :
    (s.setReg i v).reg j = if j = i then v else s.reg j := by
  by_cases h : j = i
  · subst h; simp
  · simp [h, State.reg_setReg_other]

theorem State.reg_congr {s t : State} (h : t.regs = s.regs) (i : RegIdx) : t.reg i = s.reg i := by
  simp [State.reg, h]

@[simp] theorem State.reg_setMem (s : State) (m : Memory) (i : RegIdx) : (s.setMem m).reg i = s.reg i := rfl
@[simp] theorem State.reg_setStack (s : State) (st : List Word) (i : RegIdx) : (s.setStack st).reg i = s.reg i := rfl
@[simp] theorem State.reg_setPc (s : State) (p : Word) (i : RegIdx) : (s.setPc p).reg i = s.reg i := rfl
@[simp] theorem State.reg_setStatus (s : State) (x : Status) (i : RegIdx) : (s.setStatus x).reg i = s.reg i := rfl
@[simp] theorem State.reg_setReport (s : State) (r : FaultReport) (i : RegIdx) : (s.setReport r).reg i = s.reg i := rfl
@[simp] theorem State.reg_setEnv (s : State) (e : Env) (i : RegIdx) : (s.setEnv e).reg i = s.reg i := rfl
@[simp] theorem State.reg_setResult (s : State) (r : StepResult) (i : RegIdx) : (s.setResult r).reg i = s.reg i := rfl

/-! ## The ports' environment -/

namespace Env

variable (e : Env)

@[simp] theorem inStep_inSched : e.inStep.inSched = e.inSched.tail := rfl
@[simp] theorem inStep_inIdle : e.inStep.inIdle = e.inIdle := rfl
@[simp] theorem inStep_inTaken : e.inStep.inTaken = e.inTaken := rfl
@[simp] theorem inStep_outSched : e.inStep.outSched = e.outSched := rfl
@[simp] theorem inStep_outIdle : e.inStep.outIdle = e.outIdle := rfl
@[simp] theorem inStep_outGiven : e.inStep.outGiven = e.outGiven := rfl
@[simp] theorem take_inSched (b : Byte) : (e.take b).inSched = e.inSched.tail := rfl
@[simp] theorem take_inIdle (b : Byte) : (e.take b).inIdle = e.inIdle := rfl
@[simp] theorem take_inTaken (b : Byte) : (e.take b).inTaken = e.inTaken ++ [b] := rfl
@[simp] theorem take_outSched (b : Byte) : (e.take b).outSched = e.outSched := rfl
@[simp] theorem take_outIdle (b : Byte) : (e.take b).outIdle = e.outIdle := rfl
@[simp] theorem take_outGiven (b : Byte) : (e.take b).outGiven = e.outGiven := rfl
@[simp] theorem outStep_inSched : e.outStep.inSched = e.inSched := rfl
@[simp] theorem outStep_inIdle : e.outStep.inIdle = e.inIdle := rfl
@[simp] theorem outStep_inTaken : e.outStep.inTaken = e.inTaken := rfl
@[simp] theorem outStep_outSched : e.outStep.outSched = e.outSched.tail := rfl
@[simp] theorem outStep_outIdle : e.outStep.outIdle = e.outIdle := rfl
@[simp] theorem outStep_outGiven : e.outStep.outGiven = e.outGiven := rfl
@[simp] theorem give_inSched (b : Byte) : (e.give b).inSched = e.inSched := rfl
@[simp] theorem give_inIdle (b : Byte) : (e.give b).inIdle = e.inIdle := rfl
@[simp] theorem give_inTaken (b : Byte) : (e.give b).inTaken = e.inTaken := rfl
@[simp] theorem give_outSched (b : Byte) : (e.give b).outSched = e.outSched.tail := rfl
@[simp] theorem give_outIdle (b : Byte) : (e.give b).outIdle = e.outIdle := rfl
@[simp] theorem give_outGiven (b : Byte) : (e.give b).outGiven = e.outGiven ++ [b] := rfl

end Env

end Sys2Proof.Machine
end

