-- ==== Sys2Proof/Laws/Ops.lean ====
section
/-! SUPPORT. One lemma per shared operation: what it can do. Callers cite these and do not unfold the operations. -/

namespace Sys2Proof.Machine

/-! ## How a step ends -/

namespace State

variable (s : State)

@[simp] theorem failed_regs (f : Failure) : (s.failed f).regs = s.regs := rfl
@[simp] theorem failed_mem (f : Failure) : (s.failed f).mem = s.mem := rfl
@[simp] theorem failed_stack (f : Failure) : (s.failed f).stack = s.stack := rfl
@[simp] theorem failed_pc (f : Failure) : (s.failed f).pc = s.pc := rfl
@[simp] theorem failed_status (f : Failure) : (s.failed f).status = s.status := rfl
@[simp] theorem failed_report (f : Failure) : (s.failed f).report = ⟨true, f.code, f.info, s.pc, true⟩ := rfl
@[simp] theorem failed_stackCap (f : Failure) : (s.failed f).stackCap = s.stackCap := rfl
@[simp] theorem failed_env (f : Failure) : (s.failed f).env = s.env := rfl
@[simp] theorem failed_result (f : Failure) : (s.failed f).result = some (.fault f.code f.info) := rfl

@[simp] theorem committed_regs (r : StepResult) : (s.committed r).regs = s.regs := rfl
@[simp] theorem committed_mem (r : StepResult) : (s.committed r).mem = s.mem := rfl
@[simp] theorem committed_stack (r : StepResult) : (s.committed r).stack = s.stack := rfl
@[simp] theorem committed_pc (r : StepResult) : (s.committed r).pc = s.pc := rfl
@[simp] theorem committed_status (r : StepResult) : (s.committed r).status = s.status := rfl
@[simp] theorem committed_report (r : StepResult) : (s.committed r).report = { s.report with valid := false } := rfl
@[simp] theorem committed_stackCap (r : StepResult) : (s.committed r).stackCap = s.stackCap := rfl
@[simp] theorem committed_env (r : StepResult) : (s.committed r).env = s.env := rfl
@[simp] theorem committed_result (r : StepResult) : (s.committed r).result = some r := rfl

@[simp] theorem reg_failed (f : Failure) (i : RegIdx) : (s.failed f).reg i = s.reg i := rfl
@[simp] theorem reg_committed (r : StepResult) (i : RegIdx) : (s.committed r).reg i = s.reg i := rfl

/-- The next address, as the sum of words. -/
theorem nextAddr_eq (i : Instr) : s.nextAddr i = s.pc + BitVec.ofNat 16 i.length := by
  apply BitVec.eq_of_toNat_eq
  simp [nextAddr]

/-- The value of an operand depends on the registers alone. -/
theorem val_congr {s t : State} (h : t.regs = s.regs) (o : Src) : t.val o = s.val o := by
  cases o with
  | imm n => rfl
  | reg i => exact reg_congr h i

end State

@[simp] theorem fail_next {f : Failure} {s t : State} : fail f s = .next t ↔ t = s.failed f := by
  simp [fail, eq_comm]

@[simp] theorem commit_next {r : StepResult} {s t : State} : commit r s = .next t ↔ t = s.committed r := by
  simp [commit, eq_comm]

@[simp] theorem stall_next {s t : State} : stall s = .next t ↔ t = s.setResult .stall := by
  simp [stall, eq_comm]

@[simp] theorem advance_next {i : Instr} {s t : State} :
    advance i s = .next t ↔ t = (s.setPc (s.nextAddr i)).committed .done := by
  simp [advance]

@[simp] theorem jumpTo_next {p : Word} {s t : State} : jumpTo p s = .next t ↔ t = (s.setPc p).committed .done := by
  simp [jumpTo]

@[simp] theorem writeBack_next {i : Instr} {d : RegIdx} {v : Word} {s t : State} :
    writeBack i d v s = .next t ↔ t = ((s.setReg d v).setPc (s.nextAddr i)).committed .done := by
  simp [writeBack, State.nextAddr]

@[simp] theorem haltCore_next {s t : State} : haltCore s = .next t ↔ t = (s.setStatus .halted).committed .halt := by
  simp [haltCore]

/-! ## Memory and stack -/

theorem State.load?_eq_some {s : State} {a v : Word} :
    s.load? a = some v ↔ a.toNat < Config.memWords ∧ v = readWord s.mem a.toNat := by
  unfold State.load?
  split <;> simp [*, eq_comm]

theorem State.load?_eq_none {s : State} {a : Word} : s.load? a = none ↔ Config.memWords ≤ a.toNat := by
  simp [State.load?]

theorem State.store?_eq_some {s s1 : State} {a v : Word} :
    s.store? a v = some s1 ↔ a.toNat < Config.memWords ∧ s1 = s.setMem (writeWord s.mem a.toNat v) := by
  unfold State.store?
  split <;> simp [*, eq_comm]

theorem State.store?_eq_none {s : State} {a v : Word} : s.store? a v = none ↔ Config.memWords ≤ a.toNat := by
  simp [State.store?]

theorem State.stackFull_iff {s : State} : s.stackFull = true ↔ s.stackCap = some s.stack.length := by
  unfold State.stackFull
  split <;> simp_all [eq_comm]

theorem State.push?_eq_some {s s1 : State} {v : Word} :
    s.push? v = some s1 ↔ s.stackCap ≠ some s.stack.length ∧ s1 = s.setStack (v :: s.stack) := by
  rw [ne_eq, ← stackFull_iff]
  unfold State.push?
  split <;> simp [*, eq_comm]

theorem State.push?_eq_none {s : State} {v : Word} : s.push? v = none ↔ s.stackCap = some s.stack.length := by
  rw [← stackFull_iff]
  simp [State.push?]

theorem State.pop?_eq_some {s s1 : State} {v : Word} :
    s.pop? = some (v, s1) ↔ ∃ rest, s.stack = v :: rest ∧ s1 = s.setStack rest := by
  unfold State.pop?
  split <;> simp_all [eq_comm]

theorem State.pop?_eq_none {s : State} : s.pop? = none ↔ s.stack = [] := by
  unfold State.pop?
  split <;> simp_all

/-! ## The I/O mask -/

theorem and_ff00_toNat (v : Word) : (v &&& (0xFF00 : Word)).toNat = v.toNat / 256 * 256 := by
  have h := v.isLt
  have e : v &&& (0xFF00 : Word) = (v >>> 8) <<< 8 := by
    apply BitVec.eq_of_getLsbD_eq
    intro i hi
    interval_cases i <;> simp
  rw [e]
  simp [BitVec.toNat_shiftLeft, BitVec.toNat_ushiftRight, Nat.shiftLeft_eq, Nat.shiftRight_eq_div_pow]
  omega

/-- R90: a word passes the mask exactly when it is 0 to 255. -/
theorem ioValid_iff (v : Word) : ioValid v = true ↔ v.toNat ≤ 255 := by
  unfold ioValid
  rw [beq_iff_eq, ← BitVec.toNat_inj, and_ff00_toNat]
  have := v.isLt
  simp
  omega

theorem lowByte_toNat {v : Word} (h : v.toNat ≤ 255) : (lowByte v).toNat = v.toNat := by
  simp [lowByte, BitVec.extractLsb'_toNat]
  omega

theorem zext16_toNat (b : Byte) : (zext16 b).toNat = b.toNat := by
  have := b.isLt
  simp [zext16, BitVec.toNat_setWidth]
  omega

/-! ## The ALU -/

theorem maskTag_toNat (v : Word) : (maskTag v).toNat = v.toNat % 32768 := by
  have := Nat.and_two_pow_sub_one_eq_mod v.toNat 15
  simpa [maskTag] using this

end Sys2Proof.Machine
end

