-- ==== Sys2Proof/Laws/Exec.lean ====
section
/-! SUPPORT. One lemma per instruction: everything its meaning can answer. Frames and invariants are derived from these. -/

namespace Sys2Proof.Machine

variable {s t : State} {a b c : Src} {d : RegIdx}

theorem exec_halt_next : exec .halt s = .next t ↔ t = (s.setStatus .halted).committed .halt := by
  simp [exec, execHalt]

theorem exec_noop_next : exec .noop s = .next t ↔ t = (s.setPc (s.nextAddr .noop)).committed .done := by
  simp [exec, execNoop]

theorem exec_set_next :
    exec (.set d b) s = .next t ↔ t = ((s.setReg d (s.val b)).setPc (s.nextAddr (.set d b))).committed .done := by
  simp [exec, execSet]

theorem exec_push_next :
    exec (.push a) s = .next t ↔
      (s.stackCap = some s.stack.length ∧ t = s.failed .stackOverflow) ∨
      (s.stackCap ≠ some s.stack.length ∧
        t = ((s.setStack (s.val a :: s.stack)).setPc (s.nextAddr (.push a))).committed .done) := by
  simp only [exec, execPush]
  split
  · next h => simp [State.push?_eq_none.1 h]
  · next h =>
    obtain ⟨h1, rfl⟩ := State.push?_eq_some.1 h
    simp [h1, State.nextAddr]

theorem exec_pop_next :
    exec (.pop d) s = .next t ↔
      (s.stack = [] ∧ t = s.failed .stackUnderflow) ∨
      (∃ v rest, s.stack = v :: rest ∧
        t = (((s.setStack rest).setReg d v).setPc (s.nextAddr (.pop d))).committed .done) := by
  simp only [exec, execPop]
  split
  · next h => simp [State.pop?_eq_none.1 h]
  · next h =>
    obtain ⟨rest, h1, rfl⟩ := State.pop?_eq_some.1 h
    simp [h1, State.nextAddr]

theorem exec_eq_next :
    exec (.eq d b c) s = .next t ↔
      t = ((s.setReg d (boolWord (s.val b == s.val c))).setPc (s.nextAddr (.eq d b c))).committed .done := by
  simp [exec, execEq]

theorem exec_gt_next :
    exec (.gt d b c) s = .next t ↔
      t = ((s.setReg d (boolWord (isGreater (s.val b) (s.val c)))).setPc (s.nextAddr (.gt d b c))).committed .done := by
  simp [exec, execGt]

theorem exec_jmp_next : exec (.jmp a) s = .next t ↔ t = (s.setPc (s.val a)).committed .done := by
  simp [exec, execJmp]

theorem exec_jt_next :
    exec (.jt a b) s = .next t ↔
      t = (s.setPc (if s.val a = 0 then s.nextAddr (.jt a b) else s.val b)).committed .done := by
  by_cases h : s.val a = 0#16 <;> simp [exec, execJt, isTrue, h]

theorem exec_jf_next :
    exec (.jf a b) s = .next t ↔
      t = (s.setPc (if s.val a = 0 then s.val b else s.nextAddr (.jf a b))).committed .done := by
  by_cases h : s.val a = 0#16 <;> simp [exec, execJf, isTrue, h]

theorem exec_add_next :
    exec (.add d b c) s = .next t ↔
      t = ((s.setReg d (aluAdd (s.val b) (s.val c))).setPc (s.nextAddr (.add d b c))).committed .done := by
  simp [exec, execAdd]

theorem exec_mult_next :
    exec (.mult d b c) s = .next t ↔
      t = ((s.setReg d (aluMult (s.val b) (s.val c))).setPc (s.nextAddr (.mult d b c))).committed .done := by
  simp [exec, execMult]

theorem exec_mod_next :
    exec (.mod d b c) s = .next t ↔
      (s.val c = 0 ∧ t = s.failed .modByZero) ∨
      (s.val c ≠ 0 ∧
        t = ((s.setReg d (s.val b % s.val c)).setPc (s.nextAddr (.mod d b c))).committed .done) := by
  by_cases h : s.val c = 0#16 <;> simp [exec, execMod, aluMod, h]

theorem exec_and_next :
    exec (.and d b c) s = .next t ↔
      t = ((s.setReg d (s.val b &&& s.val c)).setPc (s.nextAddr (.and d b c))).committed .done := by
  simp [exec, execAnd]

theorem exec_or_next :
    exec (.or d b c) s = .next t ↔
      t = ((s.setReg d (s.val b ||| s.val c)).setPc (s.nextAddr (.or d b c))).committed .done := by
  simp [exec, execOr]

theorem exec_not_next :
    exec (.not d b) s = .next t ↔
      t = ((s.setReg d (aluNot (s.val b))).setPc (s.nextAddr (.not d b))).committed .done := by
  simp [exec, execNot]

theorem exec_rmem_next :
    exec (.rmem d b) s = .next t ↔
      (Config.memWords ≤ (s.val b).toNat ∧ t = s.failed (.invalidAddress (s.val b))) ∨
      ((s.val b).toNat < Config.memWords ∧
        t = ((s.setReg d (readWord s.mem (s.val b).toNat)).setPc (s.nextAddr (.rmem d b))).committed .done) := by
  simp only [exec, execRmem, State.address]
  split
  · next h =>
    have := State.load?_eq_none.1 h
    simp [this, Nat.not_lt.2 this]
  · next h =>
    obtain ⟨h1, rfl⟩ := State.load?_eq_some.1 h
    simp [h1, Nat.not_le.2 h1]

theorem exec_wmem_next :
    exec (.wmem a b) s = .next t ↔
      (Config.memWords ≤ (s.val a).toNat ∧ t = s.failed (.invalidAddress (s.val a))) ∨
      ((s.val a).toNat < Config.memWords ∧
        t = ((s.setMem (writeWord s.mem (s.val a).toNat (s.val b))).setPc (s.nextAddr (.wmem a b))).committed .done) := by
  simp only [exec, execWmem, State.address]
  split
  · next h =>
    have := State.store?_eq_none.1 h
    simp [this, Nat.not_lt.2 this]
  · next h =>
    obtain ⟨h1, rfl⟩ := State.store?_eq_some.1 h
    simp [h1, Nat.not_le.2 h1, State.nextAddr]

theorem exec_call_next :
    exec (.call a) s = .next t ↔
      (s.stackCap = some s.stack.length ∧ t = s.failed .stackOverflow) ∨
      (s.stackCap ≠ some s.stack.length ∧
        t = ((s.setStack (s.nextAddr (.call a) :: s.stack)).setPc (s.val a)).committed .done) := by
  simp only [exec, execCall]
  split
  · next h => simp [State.push?_eq_none.1 h]
  · next h =>
    obtain ⟨h1, rfl⟩ := State.push?_eq_some.1 h
    simp [h1]

theorem exec_ret_next :
    exec .ret s = .next t ↔
      (s.stack = [] ∧ t = (s.setStatus .halted).committed .halt) ∨
      (∃ v rest, s.stack = v :: rest ∧ t = ((s.setStack rest).setPc v).committed .done) := by
  simp only [exec, execRet]
  split
  · next h => simp [State.pop?_eq_none.1 h]
  · next h =>
    obtain ⟨rest, h1, rfl⟩ := State.pop?_eq_some.1 h
    simp [h1]

theorem exec_out_next :
    exec (.out a) s = .next t ↔
      (255 < (s.val a).toNat ∧ t = s.failed (.invalidIOWord (s.val a))) ∨
      ((s.val a).toNat ≤ 255 ∧ s.env.outNow = .error ∧ t = (s.setEnv s.env.outStep).failed .ioError) ∨
      ((s.val a).toNat ≤ 255 ∧ s.env.outNow = .notReady ∧ t = (s.setEnv s.env.outStep).setResult .stall) ∨
      ((s.val a).toNat ≤ 255 ∧ s.env.outNow = .ready ∧
        t = ((s.setEnv (s.env.give (lowByte (s.val a)))).setPc (s.nextAddr (.out a))).committed .done) := by
  simp only [exec, execOut]
  split
  · next h =>
    have h := (ioValid_iff _).1 h
    split <;> simp [*, Nat.not_lt.2 h, State.nextAddr]
  · next h =>
    rw [ioValid_iff] at h
    simp [h, Nat.lt_of_not_le h]

theorem exec_inp_next :
    exec (.inp d) s = .next t ↔
      (s.env.inNow = .error ∧ t = (s.setEnv s.env.inStep).failed .ioError) ∨
      (s.env.inNow = .none ∧ t = (s.setEnv s.env.inStep).setResult .stall) ∨
      (s.env.inNow = .byte 13 ∧ t = (s.setEnv (s.env.take 13)).setResult .stall) ∨
      (∃ x : Byte, x ≠ 13 ∧ s.env.inNow = .byte x ∧
        t = (((s.setEnv (s.env.take x)).setReg d (zext16 x)).setPc (s.nextAddr (.inp d))).committed .done) := by
  simp only [exec, execInp]
  split
  · simp [*]
  · simp [*]
  · next x hx =>
    by_cases h : x = 13#8
    · subst h; simp [hx, carriageReturn]
    · simp [hx, h, carriageReturn, State.nextAddr]

/-- The four ways an instruction ends: with a failure, with a stall, completed, or halted. A failure or stall has used at most an answer of a port. -/
theorem exec_ends {i : Instr} (h : exec i s = .next t) :
    (∃ (e : Env) (f : Failure), e.inTaken = s.env.inTaken ∧ e.outGiven = s.env.outGiven ∧ t = (s.setEnv e).failed f) ∨
    (∃ e, t = (s.setEnv e).setResult .stall) ∨
    (∃ s1 : State, s1.report = s.report ∧ s1.status = s.status ∧ s1.stackCap = s.stackCap ∧ t = s1.committed .done) ∨
    t = (s.setStatus .halted).committed .halt := by
  have hfail : ∀ f, t = s.failed f →
      ∃ (e : Env) (f : Failure), e.inTaken = s.env.inTaken ∧ e.outGiven = s.env.outGiven ∧ t = (s.setEnv e).failed f :=
    fun f hf => ⟨s.env, f, rfl, rfl, hf⟩
  have hdone : ∀ s1 : State, t = s1.committed .done → s1.report = s.report → s1.status = s.status → s1.stackCap = s.stackCap →
      ∃ s1 : State, s1.report = s.report ∧ s1.status = s.status ∧ s1.stackCap = s.stackCap ∧ t = s1.committed .done :=
    fun s1 h1 h2 h3 h4 => ⟨s1, h2, h3, h4, h1⟩
  cases i with
  | halt => exact .inr (.inr (.inr (exec_halt_next.1 h)))
  | set => exact .inr (.inr (.inl (hdone _ (exec_set_next.1 h) rfl rfl rfl)))
  | push =>
    rcases exec_push_next.1 h with ⟨-, h⟩ | ⟨-, h⟩
    · exact .inl (hfail _ h)
    · exact .inr (.inr (.inl (hdone _ h rfl rfl rfl)))
  | pop =>
    rcases exec_pop_next.1 h with ⟨-, h⟩ | ⟨_, _, -, h⟩
    · exact .inl (hfail _ h)
    · exact .inr (.inr (.inl (hdone _ h rfl rfl rfl)))
  | eq => exact .inr (.inr (.inl (hdone _ (exec_eq_next.1 h) rfl rfl rfl)))
  | gt => exact .inr (.inr (.inl (hdone _ (exec_gt_next.1 h) rfl rfl rfl)))
  | jmp => exact .inr (.inr (.inl (hdone _ (exec_jmp_next.1 h) rfl rfl rfl)))
  | jt => exact .inr (.inr (.inl (hdone _ (exec_jt_next.1 h) rfl rfl rfl)))
  | jf => exact .inr (.inr (.inl (hdone _ (exec_jf_next.1 h) rfl rfl rfl)))
  | add => exact .inr (.inr (.inl (hdone _ (exec_add_next.1 h) rfl rfl rfl)))
  | mult => exact .inr (.inr (.inl (hdone _ (exec_mult_next.1 h) rfl rfl rfl)))
  | mod =>
    rcases exec_mod_next.1 h with ⟨-, h⟩ | ⟨-, h⟩
    · exact .inl (hfail _ h)
    · exact .inr (.inr (.inl (hdone _ h rfl rfl rfl)))
  | and => exact .inr (.inr (.inl (hdone _ (exec_and_next.1 h) rfl rfl rfl)))
  | or => exact .inr (.inr (.inl (hdone _ (exec_or_next.1 h) rfl rfl rfl)))
  | not => exact .inr (.inr (.inl (hdone _ (exec_not_next.1 h) rfl rfl rfl)))
  | rmem =>
    rcases exec_rmem_next.1 h with ⟨-, h⟩ | ⟨-, h⟩
    · exact .inl (hfail _ h)
    · exact .inr (.inr (.inl (hdone _ h rfl rfl rfl)))
  | wmem =>
    rcases exec_wmem_next.1 h with ⟨-, h⟩ | ⟨-, h⟩
    · exact .inl (hfail _ h)
    · exact .inr (.inr (.inl (hdone _ h rfl rfl rfl)))
  | call =>
    rcases exec_call_next.1 h with ⟨-, h⟩ | ⟨-, h⟩
    · exact .inl (hfail _ h)
    · exact .inr (.inr (.inl (hdone _ h rfl rfl rfl)))
  | ret =>
    rcases exec_ret_next.1 h with ⟨-, h⟩ | ⟨_, _, -, h⟩
    · exact .inr (.inr (.inr h))
    · exact .inr (.inr (.inl (hdone _ h rfl rfl rfl)))
  | out =>
    rcases exec_out_next.1 h with ⟨-, h⟩ | ⟨-, -, h⟩ | ⟨-, -, h⟩ | ⟨-, -, h⟩
    · exact .inl (hfail _ h)
    · exact .inl ⟨s.env.outStep, _, rfl, rfl, h⟩
    · exact .inr (.inl ⟨_, h⟩)
    · exact .inr (.inr (.inl (hdone _ h rfl rfl rfl)))
  | inp =>
    rcases exec_inp_next.1 h with ⟨-, h⟩ | ⟨-, h⟩ | ⟨-, h⟩ | ⟨_, -, -, h⟩
    · exact .inl ⟨s.env.inStep, _, rfl, rfl, h⟩
    · exact .inr (.inl ⟨_, h⟩)
    · exact .inr (.inl ⟨_, h⟩)
    · exact .inr (.inr (.inl (hdone _ h rfl rfl rfl)))
  | noop => exact .inr (.inr (.inl (hdone _ (exec_noop_next.1 h) rfl rfl rfl)))

/-- What a step can do: return Halt, fail to decode, or run an instruction. -/
theorem step_next :
    step s = .next t ↔
      (s.status = .halted ∧ t = s.setResult .halt) ∨
      (s.status = .running ∧ ∃ e, decodeAt s = .error e ∧ t = s.failed (.decode e)) ∨
      (s.status = .running ∧ ∃ i n, decodeAt s = .ok (i, n) ∧ exec i s = .next t) := by
  unfold step
  split
  · next h => simp [h, eq_comm]
  · next h =>
    split
    · next e he => simp [h, he]
    · next i n he =>
      simp only [h, he, reduceCtorEq, false_and, true_and, false_or, exists_false, Except.ok.injEq, Prod.mk.injEq]
      exact ⟨fun hx => ⟨i, n, ⟨rfl, rfl⟩, hx⟩, fun ⟨_, _, ⟨h1, _⟩, hx⟩ => h1 ▸ hx⟩

end Sys2Proof.Machine
end

