-- ==== Sys2Proof/Laws/HostAccess.lean ====
section
/-! SUPPORT. What the host's operations, the load, a clock edge, the peek and the assembler's tokens can do. -/

namespace Sys2Proof.Machine

/-! ## Reset -/

/-- Reset memory has the canonical form. -/
theorem wf_reset : Memory.wf State.reset.mem = true := rfl

/-! ## Host access: one frame per pin group -/

@[simp] theorem hostReg_mem (p : Option (RegIdx × Word)) (s : State) : (hostReg p s).mem = s.mem := by unfold hostReg; split <;> rfl
@[simp] theorem hostReg_stack (p : Option (RegIdx × Word)) (s : State) : (hostReg p s).stack = s.stack := by unfold hostReg; split <;> rfl
@[simp] theorem hostReg_pc (p : Option (RegIdx × Word)) (s : State) : (hostReg p s).pc = s.pc := by unfold hostReg; split <;> rfl
@[simp] theorem hostReg_status (p : Option (RegIdx × Word)) (s : State) : (hostReg p s).status = s.status := by unfold hostReg; split <;> rfl
@[simp] theorem hostReg_report (p : Option (RegIdx × Word)) (s : State) : (hostReg p s).report = s.report := by unfold hostReg; split <;> rfl
@[simp] theorem hostReg_stackCap (p : Option (RegIdx × Word)) (s : State) : (hostReg p s).stackCap = s.stackCap := by
  unfold hostReg; split <;> rfl

@[simp] theorem hostMem_regs (p : Option (BitVec 15 × Word)) (s : State) : (hostMem p s).regs = s.regs := by unfold hostMem; split <;> rfl
@[simp] theorem hostMem_stack (p : Option (BitVec 15 × Word)) (s : State) : (hostMem p s).stack = s.stack := by unfold hostMem; split <;> rfl
@[simp] theorem hostMem_pc (p : Option (BitVec 15 × Word)) (s : State) : (hostMem p s).pc = s.pc := by unfold hostMem; split <;> rfl
@[simp] theorem hostMem_status (p : Option (BitVec 15 × Word)) (s : State) : (hostMem p s).status = s.status := by
  unfold hostMem; split <;> rfl
@[simp] theorem hostMem_report (p : Option (BitVec 15 × Word)) (s : State) : (hostMem p s).report = s.report := by
  unfold hostMem; split <;> rfl
@[simp] theorem hostMem_stackCap (p : Option (BitVec 15 × Word)) (s : State) : (hostMem p s).stackCap = s.stackCap := by
  unfold hostMem; split <;> rfl

/-- The host's stack pins reach the stack alone. -/
theorem hostStack_eq (p : Option StackPin) (s : State) : ∃ st, hostStack p s = s.setStack st := by
  unfold hostStack
  split
  · exact ⟨s.stack, rfl⟩
  · unfold State.push?
    split
    · exact ⟨s.stack, rfl⟩
    · exact ⟨_, rfl⟩
  · exact ⟨_, rfl⟩

/-- The stack after the host's stack pins. -/
theorem hostStack_stack (p : Option StackPin) (s : State) :
    (hostStack p s).stack =
      match p with
      | none => s.stack
      | some (.push v) => if s.stackFull then s.stack else v :: s.stack
      | some .pop => s.stack.tail := by
  unfold hostStack
  split
  · rfl
  · unfold State.push?
    split
    · simp
    · simp
  · rfl

@[simp] theorem hostStack_regs (p : Option StackPin) (s : State) : (hostStack p s).regs = s.regs := by
  obtain ⟨st, h⟩ := hostStack_eq p s; rw [h]; rfl
@[simp] theorem hostStack_mem (p : Option StackPin) (s : State) : (hostStack p s).mem = s.mem := by
  obtain ⟨st, h⟩ := hostStack_eq p s; rw [h]; rfl
@[simp] theorem hostStack_pc (p : Option StackPin) (s : State) : (hostStack p s).pc = s.pc := by
  obtain ⟨st, h⟩ := hostStack_eq p s; rw [h]; rfl
@[simp] theorem hostStack_status (p : Option StackPin) (s : State) : (hostStack p s).status = s.status := by
  obtain ⟨st, h⟩ := hostStack_eq p s; rw [h]; rfl
@[simp] theorem hostStack_report (p : Option StackPin) (s : State) : (hostStack p s).report = s.report := by
  obtain ⟨st, h⟩ := hostStack_eq p s; rw [h]; rfl
@[simp] theorem hostStack_stackCap (p : Option StackPin) (s : State) : (hostStack p s).stackCap = s.stackCap := by
  obtain ⟨st, h⟩ := hostStack_eq p s; rw [h]; rfl

/-- The host's memory pins keep the canonical form: a 15-bit address is always in the store. -/
theorem wf_hostMem {p : Option (BitVec 15 × Word)} {s : State} (h : Memory.wf s.mem = true) : Memory.wf (hostMem p s).mem = true := by
  unfold hostMem
  split
  · exact h
  · next a v => exact Memory.wf_writeWord h a.isLt

/-! ## One clock edge -/

/-- All a clock edge can do. -/
theorem cycle_next {c : CycleIn} {s t : State} :
    cycle c s = .next t ↔
      (c.rst = true ∧ t = s.afterRst) ∨ (c.rst = false ∧ c.runEn = true ∧ step s = .next t) ∨
      (c.rst = false ∧ c.runEn = false ∧ t = hostAccess c.host s) := by
  unfold cycle
  cases c.rst <;> cases c.runEn <;> simp [eq_comm]

/-- The register a cycle writes is the one it selects. -/
theorem HostPins.reg_eq_some {p : HostPins} {i : RegIdx} {v : Word} : p.reg = some (i, v) ↔ p.regWrite = some v ∧ p.regSel = i := by
  simp [HostPins.reg, and_comm]

/-- The word a cycle writes is the one it selects. -/
theorem HostPins.mem_eq_some {p : HostPins} {a : BitVec 15} {v : Word} : p.mem = some (a, v) ↔ p.memWrite = some v ∧ p.memAddr = a := by
  simp [HostPins.mem, and_comm]

@[simp] theorem CycleIn.steps_iff {c : CycleIn} : c.steps = true ↔ c.rst = false ∧ c.runEn = true := by
  unfold CycleIn.steps
  cases c.rst <;> cases c.runEn <;> simp

/-- Host access leaves the ports' environment alone. -/
@[simp] theorem hostAccess_env (p : HostPins) (s : State) : (hostAccess p s).env = s.env := by
  obtain ⟨st, h⟩ := hostStack_eq p.stk (hostMem p.mem (hostReg p.reg s))
  rw [hostAccess, h, State.setStack_env]
  unfold hostMem hostReg
  cases p.mem <;> cases p.reg <;> rfl

/-- In a cycle that steps, the port shows what the step offers. -/
theorem State.outPort_step {c : CycleIn} (h : c.steps = true) (s : State) : s.outPort c = s.outOffer := by rw [State.outPort, if_pos h]

/-- In a cycle that steps, the port shows what the step consumes. -/
theorem State.inPort_step {c : CycleIn} (h : c.steps = true) (s : State) : s.inPort c = s.inTake := by rw [State.inPort, if_pos h]

/-- In any other cycle the core is idle: `out_valid` = 0. -/
theorem State.outPort_idle {c : CycleIn} (h : c.steps = false) (s : State) : s.outPort c = none := by rw [State.outPort, h]; rfl

/-- In any other cycle the core is idle: `in_take` = 0. -/
theorem State.inPort_idle {c : CycleIn} (h : c.steps = false) (s : State) : s.inPort c = none := by rw [State.inPort, h]; rfl

/-! ## The image -/

theorem imageWords_length (bytes : List Byte) : (imageWords bytes).length = bytes.length / 2 := by
  induction bytes using imageWords.induct with
  | case1 lo hi rest ih => simp [imageWords, ih]; omega
  | case2 l h =>
    match l, h with
    | [], _ => simp [imageWords]
    | [x], _ => simp [imageWords]
    | lo :: hi :: rest, h => exact absurd rfl (h lo hi rest)

/-- Word k of an image is made of bytes 2k and 2k+1. -/
theorem imageWords_getElem? (bytes : List Byte) (k : Nat) :
    (imageWords bytes)[k]? =
      match bytes[2 * k]?, bytes[2 * k + 1]? with
      | some lo, some hi => some (hi ++ lo : BitVec 16)
      | _, _ => none := by
  induction bytes using imageWords.induct generalizing k with
  | case1 lo hi rest ih =>
    cases k with
    | zero => simp [imageWords]
    | succ k => simp [imageWords, ih, show 2 * (k + 1) = 2 * k + 1 + 1 by omega]
  | case2 l h =>
    match l, h with
    | [], _ => simp [imageWords]
    | [x], _ => simp [imageWords]
    | lo :: hi :: rest, h => exact absurd rfl (h lo hi rest)

/-- All a load that succeeds does. -/
theorem loadImage_ok {bytes : List Byte} {s t : State} :
    loadImage bytes s = .ok t ↔
      bytes.length % 2 = 0 ∧ bytes.length ≤ 65536 ∧ t = s.setMem (writeWords s.mem 0 (imageWords bytes)) := by
  unfold loadImage
  split
  · constructor
    · intro h; cases h
    · intro h; omega
  · split
    · next h =>
      constructor
      · intro h; cases h
      · simp only [Config.memWords] at h; intro h; omega
    · next h1 h2 =>
      simp only [Config.memWords] at h2
      constructor
      · intro h; cases h; exact ⟨by omega, by omega, rfl⟩
      · rintro ⟨-, -, rfl⟩; rfl

/-! ## Fetch past the store, and the peek -/

theorem fetchWords_past {m : Memory} {n p : Nat} (h : Config.memWords ≤ p) : fetchWords m n p = [] := by
  cases n with
  | zero => rfl
  | succ n => rw [fetchWords, if_neg (by omega)]

/-- The decoder block sees the words the fetch gives. -/
theorem fetchWords_four (m : Memory) (p : Nat) :
    fetchWords m 4 p = [readWord m p, readWord m (p + 1), readWord m (p + 2), readWord m (p + 3)].take (Config.memWords - p) := by
  apply List.ext_getElem?
  intro k
  rw [Memory.fetchWords_getElem?, List.getElem?_take]
  by_cases h : p + k < Config.memWords
  · rw [if_pos (show k < Config.memWords - p by omega)]
    by_cases hk : k < 4
    · rw [if_pos ⟨hk, h⟩]
      interval_cases k <;> rfl
    · rw [if_neg (by omega), List.getElem?_eq_none (by simp; omega)]
  · rw [if_neg (by omega), if_neg (by omega)]

/-- A decode depends on pc and the word store alone. -/
theorem decodeAt_congr {s t : State} (h1 : t.pc = s.pc) (h2 : t.mem = s.mem) : decodeAt t = decodeAt s := by
  rw [decodeAt, decodeAt, h1, h2]

/-! ## The assembler's tokens -/

/-- An operand is the one its token stands for, shown by a label or not. -/
theorem tokenSrc_operandToken (l : Option Text) {o : Src} (h : o.wf = true) : tokenSrc (operandToken l o) = some o := by
  cases o with
  | reg i => rfl
  | imm n =>
    simp only [operandToken, wordToken]
    cases l with
    | some x => simp [tokenSrc, h]
    | none =>
      simp only []
      split
      · next hp =>
        simp only [isPrintable, Bool.and_eq_true] at hp
        have h1 := (ioValid_iff n).1 hp.1.1
        simp only [tokenSrc]
        congr 2
        apply BitVec.eq_of_toNat_eq
        rw [zext16_toNat, lowByte_toNat h1]
      · simp [tokenSrc, h]

end Sys2Proof.Machine
end

