-- ==== Sys2Proof/Laws/PerInstr.lean ====
section
/-! SUPPORT. What holds of every instruction as syntax, one lemma per constructor. -/

namespace Sys2Proof.Laws.EncodedLength

/-- R48, R61: an instruction has as many words as its length says, 1 to 4. -/
def Statement (i : Instr) : Prop := (encode i).length = i.length ∧ 1 ≤ i.length ∧ i.length ≤ 4

theorem halt : Statement .halt := ⟨rfl, by simp [Instr.length], by simp [Instr.length]⟩
theorem set (a : RegIdx) (b : Src) : Statement (.set a b) := ⟨rfl, by simp [Instr.length], by simp [Instr.length]⟩
theorem push (a : Src) : Statement (.push a) := ⟨rfl, by simp [Instr.length], by simp [Instr.length]⟩
theorem pop (a : RegIdx) : Statement (.pop a) := ⟨rfl, by simp [Instr.length], by simp [Instr.length]⟩
theorem eq (a : RegIdx) (b c : Src) : Statement (.eq a b c) := ⟨rfl, by simp [Instr.length], by simp [Instr.length]⟩
theorem gt (a : RegIdx) (b c : Src) : Statement (.gt a b c) := ⟨rfl, by simp [Instr.length], by simp [Instr.length]⟩
theorem jmp (a : Src) : Statement (.jmp a) := ⟨rfl, by simp [Instr.length], by simp [Instr.length]⟩
theorem jt (a b : Src) : Statement (.jt a b) := ⟨rfl, by simp [Instr.length], by simp [Instr.length]⟩
theorem jf (a b : Src) : Statement (.jf a b) := ⟨rfl, by simp [Instr.length], by simp [Instr.length]⟩
theorem add (a : RegIdx) (b c : Src) : Statement (.add a b c) := ⟨rfl, by simp [Instr.length], by simp [Instr.length]⟩
theorem mult (a : RegIdx) (b c : Src) : Statement (.mult a b c) := ⟨rfl, by simp [Instr.length], by simp [Instr.length]⟩
theorem mod (a : RegIdx) (b c : Src) : Statement (.mod a b c) := ⟨rfl, by simp [Instr.length], by simp [Instr.length]⟩
theorem and (a : RegIdx) (b c : Src) : Statement (.and a b c) := ⟨rfl, by simp [Instr.length], by simp [Instr.length]⟩
theorem or (a : RegIdx) (b c : Src) : Statement (.or a b c) := ⟨rfl, by simp [Instr.length], by simp [Instr.length]⟩
theorem not (a : RegIdx) (b : Src) : Statement (.not a b) := ⟨rfl, by simp [Instr.length], by simp [Instr.length]⟩
theorem rmem (a : RegIdx) (b : Src) : Statement (.rmem a b) := ⟨rfl, by simp [Instr.length], by simp [Instr.length]⟩
theorem wmem (a b : Src) : Statement (.wmem a b) := ⟨rfl, by simp [Instr.length], by simp [Instr.length]⟩
theorem call (a : Src) : Statement (.call a) := ⟨rfl, by simp [Instr.length], by simp [Instr.length]⟩
theorem ret : Statement .ret := ⟨rfl, by simp [Instr.length], by simp [Instr.length]⟩
theorem out (a : Src) : Statement (.out a) := ⟨rfl, by simp [Instr.length], by simp [Instr.length]⟩
theorem inp (a : RegIdx) : Statement (.inp a) := ⟨rfl, by simp [Instr.length], by simp [Instr.length]⟩
theorem noop : Statement .noop := ⟨rfl, by simp [Instr.length], by simp [Instr.length]⟩

end Sys2Proof.Laws.EncodedLength
end

