-- ==== Sys2Proof/Tests/Slice0.lean ====
section
/-! SUPPORT. Tests of the model. The expected results are those of spec/95_test_vectors.md and of the rules' own examples. Then one witness for the
hypotheses of each statement that has some. -/

namespace Sys2Proof.Tests

open Sys2Proof.Machine

/-! ## Helpers -/

/-- The reset state with words loaded from address 0. -/
def boot (ws : List Word) : State := State.reset.setMem (writeWords [] 0 ws)

/-- What `f` shows of the next state. -/
def after {α : Type} (o : Outcome) (f : State → α) : Option α :=
  match o with
  | .next t => some (f t)
  | .fault _ => none
  | .refused _ => none

/-- What a run of at most `n` steps ends in. -/
def afterRun {α : Type} (n : Nat) (s : State) (f : State → α) : Option α := after (runFor n s) f

/-! ## WellFormed: an ill-formed term for each Source place is refused -/

theorem smoke_wf_largest_literal : (Instr.push (.imm 32767)).wf = true := by decide
theorem smoke_wf_bad_literal : (Instr.push (.imm 32768)).wf = false := by decide
theorem smoke_wf_bad_second_operand : (Instr.wmem (.imm 5) (.imm 65535)).wf = false := by decide
theorem smoke_wf_bad_third_operand : (Instr.add 0 (.reg 1) (.imm 32776)).wf = false := by decide

/-! ## Decoding: a written-out word for every constructor (R54; 95_test_vectors.md sections 2.2 and 3) -/

theorem test_decode_halt : decode 0 [0x0000] = .ok (.halt, 1) := by decide
theorem test_decode_set : decode 0 [0x0001, 0x8000, 0x0048] = .ok (.set 0 (.imm 72), 3) := by decide
theorem test_decode_push : decode 0 [0x0002, 0x8001] = .ok (.push (.reg 1), 2) := by decide
theorem test_decode_pop : decode 0 [0x0003, 0x8003] = .ok (.pop 3, 2) := by decide
theorem test_decode_eq : decode 0 [0x0004, 0x8000, 0x8001, 0x0005] = .ok (.eq 0 (.reg 1) (.imm 5), 4) := by decide
theorem test_decode_gt : decode 0 [0x0005, 0x8000, 0x0006, 0x8002] = .ok (.gt 0 (.imm 6) (.reg 2), 4) := by decide
theorem test_decode_jmp : decode 0 [0x0006, 0x0064] = .ok (.jmp (.imm 100), 2) := by decide
theorem test_decode_jt : decode 0 [0x0007, 0x8000, 0x0003] = .ok (.jt (.reg 0) (.imm 3), 3) := by decide
theorem test_decode_jf : decode 0 [0x0008, 0x8000, 0x0014] = .ok (.jf (.reg 0) (.imm 20), 3) := by decide
theorem test_decode_add : decode 0 [0x0009, 0x8000, 0x8001, 0x0005] = .ok (.add 0 (.reg 1) (.imm 5), 4) := by decide
theorem test_decode_mult : decode 0 [0x000A, 0x8000, 0x8001, 0x8002] = .ok (.mult 0 (.reg 1) (.reg 2), 4) := by decide
theorem test_decode_mod : decode 0 [0x000B, 0x8002, 0x8000, 0x8003] = .ok (.mod 2 (.reg 0) (.reg 3), 4) := by decide
theorem test_decode_and : decode 0 [0x000C, 0x8000, 0x0006, 0x0003] = .ok (.and 0 (.imm 6) (.imm 3), 4) := by decide
theorem test_decode_or : decode 0 [0x000D, 0x8000, 0x0001, 0x0002] = .ok (.or 0 (.imm 1) (.imm 2), 4) := by decide
theorem test_decode_not : decode 0 [0x000E, 0x8000, 0x0000] = .ok (.not 0 (.imm 0), 3) := by decide
theorem test_decode_rmem : decode 0 [0x000F, 0x8002, 0x8001] = .ok (.rmem 2 (.reg 1), 3) := by decide
theorem test_decode_wmem : decode 0 [0x0010, 0x0005, 0x8000] = .ok (.wmem (.imm 5) (.reg 0), 3) := by decide
theorem test_decode_call : decode 3 [0x0011, 0x0009] = .ok (.call (.imm 9), 5) := by decide
theorem test_decode_ret : decode 10 [0x0012] = .ok (.ret, 11) := by decide
theorem test_decode_out : decode 0 [0x0013, 0x0048] = .ok (.out (.imm 72), 2) := by decide
theorem test_decode_in : decode 0 [0x0014, 0x8007] = .ok (.inp 7, 2) := by decide
theorem test_decode_noop : decode 32767 [0x0015] = .ok (.noop, 32768) := by decide

/-- 95_test_vectors.md section 2.2, the failing rows. -/
theorem test_decode_failures :
    decode 0 [22] = .error (.illegalInstruction 22) ∧ decode 0 [65535] = .error (.illegalInstruction 65535) ∧
    decode 0 [32768] = .error (.illegalInstruction 32768) ∧ decode 0 [1, 5, 3] = .error (.invalidDstOperand 5) ∧
    decode 0 [1, 32768, 32776] = .error (.invalidSrcOperand 32776) ∧
    decode 0 [9, 3, 32776, 0] = .error (.invalidDstOperand 3) ∧
    decode 0 [16, 32776, 32768] = .error (.invalidSrcOperand 32776) ∧ decode 32767 [1] = .error (.invalidIp 32768) ∧
    decode 32765 [9, 32768, 32769] = .error (.invalidIp 32768) ∧ decode 32765 [9, 5, 32769] = .error (.invalidDstOperand 5) ∧
    decode 65535 [] = .error (.invalidIp 65535) := by decide

/-- 95_test_vectors.md section 2.1 at the class boundaries. -/
theorem test_operand_classes :
    decodeSrc 32767 = .ok (.imm 32767) ∧ decodeSrc 32768 = .ok (.reg 0) ∧ decodeSrc 32775 = .ok (.reg 7) ∧
    decodeSrc 32776 = .error (.invalidSrcOperand 32776) ∧ decodeSrc 49152 = .error (.invalidSrcOperand 49152) ∧
    decodeDst 32767 = .error (.invalidDstOperand 32767) ∧ decodeDst 32775 = .ok 7 ∧
    decodeDst 32776 = .error (.invalidDstOperand 32776) ∧ decodeDst 65535 = .error (.invalidDstOperand 65535) := by decide

/-- 95_test_vectors.md section 2.3. -/
theorem test_decoder_ports :
    (decoderBlock 0 9 32768 32769 5).next = 4 ∧ (decoderBlock 0 9 32768 32769 5).len = 4 ∧
    (decoderBlock 0 9 32768 32769 5).opA.isReg = true ∧ (decoderBlock 0 9 32768 32769 5).opA.reg = 0 ∧
    (decoderBlock 0 9 32768 32769 5).opB.isReg = true ∧ (decoderBlock 0 9 32768 32769 5).opB.reg = 1 ∧
    (decoderBlock 0 9 32768 32769 5).opC.isReg = false ∧ (decoderBlock 0 9 32768 32769 5).opC.imm = 5 := by
  decide
theorem test_decoder_ports_error :
    (decoderBlock 32767 19 1 2 3).err = 1 ∧ (decoderBlock 32767 19 1 2 3).errInfo = 32768 ∧ (decoderBlock 0 30 0 0 0).errInfo = 30 := by
  decide

/-! ## One step (95_test_vectors.md section 3) -/

theorem test_halt_keeps_pc : after (step ((boot []).setPc 4)) (fun t => (t.status, t.pc)) = some (.halted, 4) := by decide
theorem test_noop_at_the_last_word :
    after (step ((State.reset.setMem (writeWord [] 32767 21)).setPc 32767)) (·.pc) = some 32768 := by decide
theorem test_set_does_not_mask :
    after (step ((boot [1, 32768, 32769]).setReg 1 40000)) (fun t => (t.reg 0, t.pc)) = some (40000, 3) := by decide
theorem test_push : after (step (((boot [2, 32769]).setReg 1 65535).setStack [1])) (·.stack) = some [65535, 1] := by decide
theorem test_pop : after (step ((boot [3, 32771]).setStack [65])) (fun t => (t.reg 3, t.stack, t.pc)) = some (65, [], 2) := by decide
theorem test_pop_underflow :
    after (step (boot [3, 32771])) (fun t => (t.report.code, t.reg 3, t.pc, t.status)) = some (5, 0, 0, .running) := by decide
theorem test_eq_full_width :
    after (step (((boot [4, 32768, 32769, 32770]).setReg 1 32768).setReg 2 32768)) (fun t => (t.reg 0, t.pc)) = some (1, 4) := by decide
theorem test_gt_unsigned : after (step ((boot [5, 32768, 32769, 0]).setReg 1 65535)) (·.reg 0) = some 1 := by decide
theorem test_gt_direction : after (step (boot [5, 32768, 5, 6])) (·.reg 0) = some 0 := by decide
theorem test_jmp_out_of_bounds : after (step ((boot [6, 32768]).setReg 0 40000)) (·.pc) = some 40000 := by decide
theorem test_jt_taken : after (step ((boot [7, 32768, 3]).setReg 0 65535)) (·.pc) = some 3 := by decide
theorem test_jt_not_taken : after (step (boot [7, 32768, 50])) (·.pc) = some 3 := by decide
theorem test_jf_taken : after (step (boot [8, 32768, 20])) (·.pc) = some 20 := by decide
theorem test_jf_not_taken : after (step ((boot [8, 32768, 20]).setReg 0 1)) (·.pc) = some 3 := by decide
theorem test_call_target_before_push :
    after (step (((State.reset.setMem (writeWords [] 3 [17, 32768])).setPc 3).setReg 0 3)) (fun t => (t.stack, t.pc)) = some ([5], 3) := by
  decide
theorem test_ret : after (step ((boot [18]).setStack [5])) (fun t => (t.pc, t.stack)) = some (5, []) := by decide
theorem test_ret_empty_halts : after (step (boot [18])) (fun t => (t.status, t.pc, t.report.valid)) = some (.halted, 0, false) := by decide
theorem test_add_wraps : after (step ((boot [9, 32768, 32769, 5]).setReg 1 32767)) (·.reg 0) = some 4 := by decide
theorem test_add_largest :
    after (step ((boot [9, 32768, 32769, 32769]).setReg 1 65535)) (·.reg 0) = some 32766 := by decide
theorem test_mult_masks : after (step ((boot [10, 32768, 32769, 200]).setReg 1 200)) (·.reg 0) = some 7232 := by decide
theorem test_mod_not_masked :
    after (step (((boot [11, 32768, 32769, 32770]).setReg 1 40000).setReg 2 65535)) (·.reg 0) = some 40000 := by decide
theorem test_mod_by_zero : after (step (boot [11, 32768, 5, 0])) (fun t => (t.report.code, t.pc)) = some (9, 0) := by decide
theorem test_and_keeps_bit_15 :
    after (step (((boot [12, 32768, 32769, 32770]).setReg 1 65535).setReg 2 32768)) (·.reg 0) = some 32768 := by decide
theorem test_or_keeps_bit_15 : after (step ((boot [13, 32768, 32769, 1]).setReg 1 32768)) (·.reg 0) = some 32769 := by decide
theorem test_not : after (step ((boot [14, 32768, 32769]).setReg 1 0x5555)) (·.reg 0) = some 0x2AAA := by decide
theorem test_not_of_tagged : after (step ((boot [14, 32768, 32769]).setReg 1 32768)) (·.reg 0) = some 32767 := by decide
theorem test_rmem_reads_its_own_opcode : after (step (boot [15, 32768, 0])) (·.reg 0) = some 15 := by decide
theorem test_rmem_out_of_bounds :
    after (step ((boot [15, 32768, 32769]).setReg 1 32768)) (fun t => (t.report.code, t.report.info)) = some (6, 32768) := by decide
theorem test_wmem : after (step ((boot [16, 100, 32768]).setReg 0 50000)) (fun t => readWord t.mem 100) = some 50000 := by decide
theorem test_wmem_out_of_bounds :
    after (step ((boot [16, 32768, 1]).setReg 0 65535)) (fun t => (t.report.info, decide (t.mem = (boot [16, 32768, 1]).mem))) =
      some (65535, true) := by decide
theorem test_out_byte : after (step (boot [19, 255])) (fun t => (t.env.outGiven, t.pc)) = some ([0xFF], 2) := by decide
theorem test_out_invalid : after (step (boot [19, 256])) (fun t => (t.report.code, t.report.info, t.env.outGiven)) = some (7, 256, []) := by
  decide
theorem test_in_byte :
    after (step ((boot [20, 32768]).setEnv { Env.reset with inSched := [.byte 97] })) (fun t => (t.reg 0, t.pc)) = some (97, 2) := by decide
theorem test_in_skips_cr :
    afterRun 2 ((boot [20, 32768]).setEnv { Env.reset with inSched := [.byte 13, .byte 10] }) (fun t => (t.reg 0, t.env.inTaken)) =
      some (10, [13, 10]) := by decide
theorem test_in_bad_destination_consumes_nothing :
    after (step ((boot [20, 5]).setEnv { Env.reset with inSched := [.byte 97] })) (fun t => (t.report.code, t.env.inSched)) =
      some (4, [.byte 97]) := by decide
theorem test_halted_step : after (step ((boot [21]).setStatus .halted)) (fun t => (t.pc, t.result)) = some (0, some .halt) := by decide

/-- A failure's report stays, with `fault_valid` cleared, when the next step completes (R17, R22). -/
theorem test_fault_seen_is_sticky :
    after (step ((boot [21]).setReport ⟨true, 9, 0, 7, true⟩)) (·.report) = some ⟨false, 9, 0, 7, true⟩ := by decide

/-! ## Programs of section 4 -/

/-- P1: "Hi", with its image bytes. -/
theorem test_program_P1 :
    (match loadImage [0x13, 0, 0x48, 0, 0x13, 0, 0x69, 0, 0, 0] State.reset with
      | .ok s => afterRun 9 s fun t => (t.env.outGiven, t.status, t.pc)
      | .error _ => none) = some ([0x48, 0x69], .halted, 4) := by decide

/-- P5: self-modifying code. -/
theorem test_program_P5 : afterRun 9 (boot [16, 3, 21, 0, 0]) (fun t => (readWord t.mem 3, t.status, t.pc)) = some (21, .halted, 4) := by
  decide

/-- P6: a failure in the middle of a program. -/
theorem test_program_P6 :
    afterRun 9 (boot [1, 32769, 200, 10, 32768, 32769, 32769, 11, 32770, 32768, 32771])
      (fun t => (t.reg 0, t.pc, t.status, t.report)) = some (7232, 7, .running, ⟨true, 9, 0, 7, true⟩) := by decide

/-- W3: the text of `out 'H'`, and a register and a numeral (R62). -/
theorem test_text :
    instrText (fun _ => none) (.out (.imm 72)) = ['o','u','t',' ','\'','H','\''] ∧
    instrText (fun _ => none) (.add 0 (.reg 1) (.imm 32767)) = ['a','d','d',' ','r','0',' ','r','1',' ','3','2','7','6','7'] := by decide

/-- The fetch word stands where the next step fetches it. -/
theorem test_withFetchWord :
    decodeTableWord 48 0x000580000001 = some (.set 0 (.imm 5)) ∧
    after (step (State.reset.withFetchWord 48 0x000580000001)) (fun t => (t.reg 0, t.pc)) = some (5, 3) := by decide

/-! ## Witnesses: for each statement with hypotheses, concrete states and operands that meet them all, clause by clause and at the clauses' boundaries -/

/-- A state whose ports answer so. -/
def withPorts (s : State) (i : InSample) (o : OutSample) : State := s.setEnv { Env.reset with inIdle := i, outIdle := o }

/-- A host that writes nothing. -/
def idle : HostPins := ⟨0, none, 0, none, none⟩

/-- A halted state. -/
def stopped : State := (boot [21]).setStatus .halted

theorem witness_DecodingAnEncodingGivesTheInstruction :
    Instr.wf .noop = true ∧ (Instr.add 7 (.imm 32767) (.reg 7)).wf = true ∧ (Instr.wmem (.imm 0) (.imm 32767)).wf = true := by decide

theorem witness_DecodedWordsAreTheEncoding :
    decode 32764 [9, 32775, 32767, 32775, 99] = .ok (.add 7 (.imm 32767) (.reg 7), 32768) ∧ decode 0 [18] = .ok (.ret, 1) := by decide

theorem witness_operand_class_boundaries :
    (0 : Word).toNat / 32768 = 0 ∧ (32767 : Word).toNat / 32768 = 0 ∧
    ((32768 : Word).toNat / 32768 = 1 ∧ (32768 : Word).toNat / 8 % 4096 = 0) ∧
    ((32775 : Word).toNat / 32768 = 1 ∧ (32775 : Word).toNat / 8 % 4096 = 0) ∧
    ((32776 : Word).toNat / 32768 = 1 ∧ (32776 : Word).toNat / 8 % 4096 ≠ 0) ∧
    ((65535 : Word).toNat / 32768 = 1 ∧ (65535 : Word).toNat / 8 % 4096 ≠ 0) := by decide

theorem witness_ImmediateIsTheWholeWord :
    decodeSrc 0 = .ok (.imm 0) ∧ decodeSrc 32767 = .ok (.imm 32767) ∧ decodeSrc 32768 = .ok (.reg 0) ∧ decodeSrc 32775 = .ok (.reg 7) ∧
    decodeDst 32768 = .ok 0 ∧ decodeDst 32775 = .ok 7 := by decide

theorem witness_IllegalOpcodeWordsAreThoseFromTwentyTwo :
    decode 0 [22] = .error (.illegalInstruction 22) ∧ decode 0 [65535] = .error (.illegalInstruction 65535) ∧
    decode 0 [21] ≠ .error (.illegalInstruction 21) := by decide

/-- A Destination first, a Source first, and a later place. -/
theorem witness_FirstBadOperandWordIsReported :
    (Instr.add 0 (.reg 1) (.imm 5)).wf = true ∧ 1 < (Instr.add 0 (.reg 1) (.imm 5)).length ∧
    (Instr.add 0 (.reg 1) (.imm 5)).destination.isSome = true ∧ (32767 : Word).toNat < 32768 ∧ 32776 ≤ (32776 : Word).toNat ∧
    3 < (Instr.add 0 (.reg 1) (.imm 5)).length ∧ (3 ≠ 1 ∨ (Instr.add 0 (.reg 1) (.imm 5)).destination.isSome = false) ∧
    (Instr.push (.imm 5)).wf = true ∧ 1 < (Instr.push (.imm 5)).length ∧ (Instr.push (.imm 5)).destination.isSome = false := by decide

/-- pc at 32768 and at 65535; then an instruction cut off after its first word, and after its third. -/
theorem witness_FetchPastTheStoreFails :
    (((boot []).setPc 32768).status = .running ∧ 32768 ≤ ((boot []).setPc 32768).pc.toNat) ∧
    (((boot []).setPc 65535).status = .running ∧ 32768 ≤ ((boot []).setPc 65535).pc.toNat) ∧
    (Instr.wf (.jmp (.imm 3)) = true ∧ 1 < (Instr.jmp (.imm 3)).length ∧ 32767 + 1 = 32768 ∧
      ∀ j, j < 1 → (encode (.jmp (.imm 3)))[j]? = some (readWord (writeWord [] 32767 6) (32767 + j))) ∧
    (Instr.wf (.eq 0 (.reg 1) (.imm 5)) = true ∧ 3 < (Instr.eq 0 (.reg 1) (.imm 5)).length ∧ 32765 + 3 = 32768 ∧
      ∀ j, j < 3 → (encode (.eq 0 (.reg 1) (.imm 5)))[j]? = some (readWord (writeWords [] 32765 [4, 32768, 32769]) (32765 + j))) := by decide

/-- Its second clause at the last place where four words fit. -/
theorem witness_StepRunsTheDecodedInstruction :
    ((boot [9, 32768, 32769, 5]).status = .running ∧ decodeAt (boot [9, 32768, 32769, 5]) = .ok (.add 0 (.reg 1) (.imm 5), 4)) ∧
    (Instr.wf (.add 0 (.reg 1) (.imm 5)) = true ∧ 32764 + (Instr.add 0 (.reg 1) (.imm 5)).length ≤ 32768 ∧
      ∀ k, k < 4 → (encode (.add 0 (.reg 1) (.imm 5)))[k]? = some (readWord (writeWords [] 32764 [9, 32768, 32769, 5]) (32764 + k))) := by decide

/-- One state for each of the four decode failures. -/
theorem witness_UndecodableWordsFailByName :
    decodeAt ((boot []).setPc 32768) = .error (.invalidIp 32768) ∧ decodeAt (boot [22]) = .error (.illegalInstruction 22) ∧
    decodeAt (boot [2, 32776]) = .error (.invalidSrcOperand 32776) ∧ decodeAt (boot [3, 32767]) = .error (.invalidDstOperand 32767) ∧
    (boot [22]).status = .running := by decide

theorem witness_HaltedStepChangesNothing : stopped.status = .halted := rfl

/-- A decode failure and an execution failure. -/
theorem witness_FailingStepChangesOnlyTheReport :
    (∃ t, step (boot [22]) = .next t ∧ t.result = some (.fault 2 22)) ∧ (∃ t, step (boot [3, 32771]) = .next t ∧ t.result = some (.fault 5 0)) :=
  ⟨⟨_, rfl, rfl⟩, _, rfl, rfl⟩

theorem witness_UnchangedStateFailsAgain :
    ∃ t, step (boot [11, 32768, 5, 0]) = .next t ∧ t.result = some (.fault 9 0) ∧ (9 : BitVec 4) ≠ 8 := ⟨_, rfl, rfl, by decide⟩

/-- One running state for each of the four outcomes. -/
theorem witness_FaultReportFollowsTheOutcome :
    (∃ t, step (boot [21]) = .next t ∧ t.result = some .done) ∧ (∃ t, step (boot [0]) = .next t ∧ t.result = some .halt) ∧
    (∃ t, step (boot [20, 32768]) = .next t ∧ t.result = some .stall) ∧ (∃ t, step (boot [22]) = .next t ∧ t.result = some (.fault 2 22)) :=
  ⟨⟨_, rfl, rfl⟩, ⟨_, rfl, rfl⟩, ⟨_, rfl, rfl⟩, _, rfl, rfl⟩

/-- `in` with no byte, `in` with a carriage return, `out` with the sink not ready. -/
theorem witness_OnlyWaitingInAndOutStall :
    (∃ t, step (boot [20, 32768]) = .next t ∧ t.result = some .stall) ∧
    (∃ t, step (withPorts (boot [20, 32768]) (.byte 13) .ready) = .next t ∧ t.result = some .stall) ∧
    (∃ t, step (withPorts (boot [19, 255]) .none .notReady) = .next t ∧ t.result = some .stall) :=
  ⟨⟨_, rfl, rfl⟩, ⟨_, rfl, rfl⟩, _, rfl, rfl⟩

/-- A cycle of reset, one of a step, one of host access. -/
theorem witness_OnlyResetLeavesHalted :
    stopped.status = .halted ∧ (∃ t, cycle ⟨true, false, idle⟩ stopped = .next t) ∧
    (∃ t, cycle ⟨false, true, idle⟩ stopped = .next t) ∧
    (∃ t, cycle ⟨false, false, ⟨0, some 5, 0, none, some .pop⟩⟩ stopped = .next t) := ⟨rfl, ⟨_, rfl⟩, ⟨_, rfl⟩, _, rfl⟩

/-- A run that ends early, and one that uses all its steps. -/
theorem witness_RunStopsAtHaltOrFault :
    (∃ t, runFor 9 (boot [21, 0]) = .next t ∧ t.result = some .halt) ∧ (∃ t, runFor 2 (boot [21, 21]) = .next t ∧ t.result = some .done) :=
  ⟨⟨_, rfl, rfl⟩, _, rfl, rfl⟩

theorem witness_NoopOnlyAdvances :
    (((boot []).setPc 32768).status = .running ∧ 32768 ≤ ((boot []).setPc 32768).pc.toNat) ∧
    ((State.reset.setPc 32767).status = .running ∧ (State.reset.setPc 32767).pc.toNat < 32768 ∧
      readWord (writeWord [] 32767 21) 32767 = 0x0015) := by decide

/-- An unbounded stack, and a finite one with one place left: for push and call. -/
theorem witness_stack_not_full :
    (boot []).stackCap ≠ some (boot []).stack.length ∧
    ({ boot [] with stackCap := some 2, stack := [7] } : State).stackCap ≠ some [(7 : Word)].length := by decide

/-- A full finite stack, with words on it and with capacity 0. -/
theorem witness_FullFiniteStackOverflows :
    ({ boot [] with stackCap := some 1, stack := [7] } : State).stackCap = some [(7 : Word)].length ∧
    ({ boot [] with stackCap := some 0 } : State).stackCap = some (boot []).stack.length ∧
    (boot []).stackCap = none ∧ ∃ t, exec (.push (.imm 1)) (boot []) = .next t := ⟨rfl, rfl, rfl, _, rfl⟩

/-- A stack of one word and an empty stack: for pop and ret. -/
theorem witness_stack_empty_or_not : ((boot []).setStack [65535]).stack = [65535] ∧ (boot []).stack = [] := by decide

theorem witness_AddWrapsAndClearsBitFifteen :
    ((boot []).val (.imm 0)).toNat < 32768 ∧ ((boot []).val (.imm 32767)).toNat < 32768 ∧ ((boot []).val (.imm 32767)).toNat = 32767 := by decide

theorem witness_ModIsTheUnsignedRemainder :
    ((boot []).val (.imm 1)).toNat ≠ 0 ∧ (((boot []).setReg 1 65535).val (.reg 1)).toNat ≠ 0 ∧ ((boot []).val (.imm 0)).toNat = 0 := by decide

theorem witness_data_address :
    Memory.wf (boot [1, 2, 3]).mem = true ∧ ((boot [1, 2, 3]).val (.imm 0)).toNat < 32768 ∧ ((boot [1, 2, 3]).val (.imm 32767)).toNat < 32768 ∧
    32768 ≤ (((boot [1, 2, 3]).setReg 1 32768).val (.reg 1)).toNat ∧ 32768 ≤ (((boot [1, 2, 3]).setReg 1 65535).val (.reg 1)).toNat := by decide

theorem witness_OutGivesOneByte :
    ((boot []).val (.imm 0)).toNat ≤ 255 ∧ ((boot []).val (.imm 255)).toNat ≤ 255 ∧ (boot []).env.outNow = .ready := by decide

theorem witness_OutChecksTheWordBeforeThePort :
    255 < ((boot []).val (.imm 256)).toNat ∧ 255 < (((boot []).setReg 1 65535).val (.reg 1)).toNat ∧
    (withPorts (boot []) .none .error).env.outNow = .error ∧ (withPorts (boot []) .none .notReady).env.outNow = .notReady ∧
    ((boot []).val (.imm 255)).toNat ≤ 255 := by decide

/-- The bytes at both ends and around a carriage return. -/
theorem witness_InStoresTheByte :
    (withPorts (boot []) (.byte 0) .ready).env.inNow = .byte 0 ∧ (0 : Byte).toNat ≠ 13 ∧
    (withPorts (boot []) (.byte 12) .ready).env.inNow = .byte 12 ∧ (12 : Byte).toNat ≠ 13 ∧
    (withPorts (boot []) (.byte 14) .ready).env.inNow = .byte 14 ∧ (14 : Byte).toNat ≠ 13 ∧
    (withPorts (boot []) (.byte 255) .ready).env.inNow = .byte 255 ∧ (255 : Byte).toNat ≠ 13 := by decide

theorem witness_InDiscardsCarriageReturns :
    (withPorts (boot []) (.byte 13) .ready).env.inNow = .byte 13 ∧ (boot []).env.inNow = .none ∧
    (withPorts (boot []) .error .ready).env.inNow = .error := by decide

/-- An instruction with a destination and another register; one with none; a step that changes a register; the host's write. -/
theorem witness_OnlyTheDestinationRegisterIsWritten :
    (∃ t, step (boot [1, 32775, 5]) = .next t ∧ t.reg 7 ≠ (boot [1, 32775, 5]).reg 7) ∧ 20 ∈ [1, 3, 4, 5, 9, 10, 11, 12, 13, 14, 15, 20] ∧
    (∃ t, exec (.set 0 (.imm 5)) (boot []) = .next t) ∧ (Instr.set 0 (.imm 5)).destination ≠ some 7 ∧
    (∃ t, exec (.push (.imm 5)) (boot []) = .next t) ∧ (Instr.push (.imm 5)).destination ≠ some 0 ∧
    ((⟨3, some 9, 0, none, none⟩ : HostPins).reg.map Prod.fst ≠ some 2 ∧ (⟨3, some 9, 0, none, none⟩ : HostPins).reg = some (3, 9)) :=
  ⟨⟨_, rfl, by decide⟩, by decide, ⟨_, rfl⟩, by decide, ⟨_, rfl⟩, by decide, by decide, rfl⟩

/-- A store at the last address, one out of bounds, and an instruction that stores nothing. -/
theorem witness_OnlyWmemStoresAndOnlyOneWord :
    Memory.wf (boot [1, 2, 3]).mem = true ∧
    ((∃ t, exec (.wmem (.imm 32767) (.imm 9)) (boot [1, 2, 3]) = .next t) ∧ ((boot [1, 2, 3]).address (.imm 32767)).toNat < 32768) ∧
    ((∃ t, exec (.wmem (.reg 1) (.imm 9)) ((boot [1, 2, 3]).setReg 1 32768) = .next t) ∧
      32768 ≤ (((boot [1, 2, 3]).setReg 1 32768).address (.reg 1)).toNat) ∧
    (∃ t, exec (.rmem 0 (.imm 1)) (boot [1, 2, 3]) = .next t) ∧ ∀ a b, Instr.rmem 0 (.imm 1) ≠ .wmem a b :=
  ⟨by decide, ⟨⟨_, rfl⟩, by decide⟩, ⟨⟨_, rfl⟩, by decide⟩, ⟨_, rfl⟩, by intro a b h; cases h⟩

/-- An instruction that leaves the stack, and a ret on a stack that is not empty. -/
theorem witness_StackAndStatusFrame :
    (∃ t, exec (.add 0 (.reg 1) (.imm 5)) (boot []) = .next t) ∧ (∀ a, Instr.add 0 (.reg 1) (.imm 5) ≠ .push a) ∧
    Instr.add 0 (.reg 1) (.imm 5) ≠ .halt ∧ (∃ t, exec .ret ((boot []).setStack [5]) = .next t) ∧ ((boot []).setStack [5]).stack ≠ [] :=
  ⟨⟨_, rfl⟩, (by intro a h; cases h), (by decide), ⟨_, rfl⟩, by decide⟩

theorem witness_CompletingInstructionOnlyClearsFaultValid :
    (∃ t, exec .noop ((boot []).setReport ⟨true, 9, 0, 7, true⟩) = .next t ∧ t.result = some .done) ∧
    (∃ t, exec .halt ((boot []).setReport ⟨true, 9, 0, 7, true⟩) = .next t ∧ t.result = some .halt) := ⟨⟨_, rfl, rfl⟩, _, rfl, rfl⟩

theorem witness_OnlyInAndOutReachThePorts :
    (∃ t, exec .noop (boot []) = .next t) ∧ (∃ t, exec (.out (.imm 65)) (boot []) = .next t) ∧
    (∃ t, exec (.inp 0) (withPorts (boot []) (.byte 65) .ready) = .next t) := ⟨⟨_, rfl⟩, ⟨_, rfl⟩, _, rfl⟩

/-- One that completes, and one each that fails, stalls and halts. -/
theorem witness_CompletingNonTransferAdvancesByItsLength :
    (∃ t, exec (.not 0 (.imm 5)) (boot []) = .next t ∧ t.result = some .done) ∧ (Instr.not 0 (.imm 5)).opcode ∉ [6, 7, 8, 17, 18] ∧
    (∃ t, exec (.pop 0) (boot []) = .next t ∧ t.result ≠ some .done) ∧ (∃ t, exec (.inp 0) (boot []) = .next t ∧ t.result ≠ some .done) ∧
    (∃ t, exec .ret (boot []) = .next t ∧ t.result ≠ some .done) :=
  ⟨⟨_, rfl, rfl⟩, by decide, ⟨_, rfl, by decide⟩, ⟨_, rfl, by decide⟩, _, rfl, by decide⟩

/-- One failure for each of the six codes. -/
theorem witness_ExecutionFailuresHaveTheirOwnCauses :
    (∃ t, exec (.pop 0) (boot []) = .next t ∧ t.result = some (.fault 5 0)) ∧
    (∃ t, exec (.rmem 0 (.reg 1)) ((boot []).setReg 1 32768) = .next t ∧ t.result = some (.fault 6 32768)) ∧
    (∃ t, exec (.out (.imm 256)) (boot []) = .next t ∧ t.result = some (.fault 7 256)) ∧
    (∃ t, exec (.inp 0) (withPorts (boot []) .error .ready) = .next t ∧ t.result = some (.fault 8 0)) ∧
    (∃ t, exec (.mod 0 (.imm 1) (.imm 0)) (boot []) = .next t ∧ t.result = some (.fault 9 0)) ∧
    (∃ t, exec (.push (.imm 1)) { boot [] with stackCap := some 0 } = .next t ∧ t.result = some (.fault 10 0)) :=
  ⟨⟨_, rfl, rfl⟩, ⟨_, rfl, rfl⟩, ⟨_, rfl, rfl⟩, ⟨_, rfl, rfl⟩, ⟨_, rfl, rfl⟩, _, rfl, rfl⟩

/-- A store into the last word of the next fetch, a host write, and two states that share pc and store. -/
theorem witness_WritesAreFetchedByTheNextStep :
    Memory.wf (boot [16, 6, 21]).mem = true ∧ ((boot [16, 6, 21]).val (.imm 6)).toNat < 32768 ∧
    (∃ t, exec (.wmem (.imm 6) (.imm 21)) (boot [16, 6, 21]) = .next t) ∧ 3 < 4 ∧ 3 + 3 = ((boot [16, 6, 21]).val (.imm 6)).toNat ∧
    (⟨0, none, 32767, some 21, none⟩ : HostPins).mem = some (32767, 21) ∧ 32764 + 3 = (32767 : BitVec 15).toNat ∧
    ((boot [21]).setReg 3 9).pc = (boot [21]).pc ∧ ((boot [21]).setReg 3 9).mem = (boot [21]).mem :=
  ⟨by decide, by decide, ⟨_, rfl⟩, by decide, by decide, rfl, by decide, rfl, rfl⟩

/-- Reading the address just written, and the one beside it. -/
theorem witness_RmemAfterWmemReadsTheWrite :
    ∃ t, exec (.wmem (.imm 100) (.reg 0)) ((boot [1]).setReg 0 50000) = .next t ∧ Memory.wf ((boot [1]).setReg 0 50000).mem = true ∧
      t.val (.imm 100) = ((boot [1]).setReg 0 50000).val (.imm 100) ∧
      t.val (.imm 101) ≠ ((boot [1]).setReg 0 50000).val (.imm 100) ∧ (t.val (.imm 101)).toNat < 32768 :=
  ⟨_, rfl, by decide, rfl, by decide, by decide⟩

theorem witness_RetReturnsAfterTheCall :
    ∃ t, exec (.call (.imm 9)) ((boot []).setStack [7]) = .next t ∧ t.result = some .done := ⟨_, rfl, rfl⟩

/-- A canonical memory with bytes at both ends of the store, and agreement of it with itself written in the other order. -/
theorem witness_CanonicalMemoryIsDeterminedByItsWords :
    Memory.wf (writeWord (writeWord [] 32767 65535) 0 1) = true ∧ Memory.wf (writeWord (writeWord [] 0 1) 32767 65535) = true ∧
    ∀ a, a < 32768 → readWord (writeWord (writeWord [] 32767 65535) 0 1) a = readWord (writeWord (writeWord [] 0 1) 32767 65535) a := by
  have h : writeWord (writeWord [] 32767 65535) 0 1 = writeWord (writeWord [] 0 1) 32767 65535 := by decide
  exact ⟨by decide, by decide, fun a _ => by rw [h]⟩

/-- The invariant in a state with a failure on record and a full finite stack. -/
theorem witness_StepKeepsTheInvariant :
    State.Inv { boot [9, 32768, 32769, 5] with stackCap := some 1, stack := [7], report := ⟨true, 9, 0, 7, true⟩ } ∧
    ∃ t, step { boot [9, 32768, 32769, 5] with stackCap := some 1, stack := [7], report := ⟨true, 9, 0, 7, true⟩ } = .next t := by
  refine ⟨⟨by decide, ?_, ⟨by decide, by decide, by decide⟩⟩, _, rfl⟩
  intro cap h
  cases h
  decide

/-- The three kinds of clock edge from a state that meets the invariant. -/
theorem witness_EveryClockEdgeKeepsTheInvariant :
    State.Inv (boot [21]) ∧ (∃ t, cycle ⟨true, true, idle⟩ (boot [21]) = .next t) ∧
    (∃ t, cycle ⟨false, true, idle⟩ (boot [21]) = .next t) ∧
    (∃ t, cycle ⟨false, false, ⟨0, none, 0, some 0, some (.push 3)⟩⟩ (boot [21]) = .next t) := by
  refine ⟨⟨by decide, ?_, ⟨by decide, by decide, by decide⟩⟩, ⟨_, rfl⟩, ⟨_, rfl⟩, _, rfl⟩
  intro cap h
  cases h

theorem witness_AssemblingTheTokensGivesTheInstruction : (Instr.wmem (.imm 32767) (.imm 72)).wf = true ∧ Instr.wf .halt = true := by decide

theorem witness_ResetPinResetsTheCoreNotThePorts : (⟨true, true, idle⟩ : CycleIn).rst = true := rfl

/-- No bytes; the longest image; one word too many; one byte too many. -/
theorem witness_BadImagesDoNotLoad :
    (([] : List Byte).length % 2 = 0 ∧ ([] : List Byte).length ≤ 65536) ∧
    ((List.replicate 65536 (0 : Byte)).length % 2 = 0 ∧ (List.replicate 65536 (0 : Byte)).length ≤ 65536) ∧
    ((List.replicate 65535 (0 : Byte)).length % 2 = 1 ∧ (List.replicate 65535 (0 : Byte)).length ≤ 65536) ∧
    ((List.replicate 65538 (0 : Byte)).length % 2 = 0 ∧ 65536 < (List.replicate 65538 (0 : Byte)).length) ∧
    ((List.replicate 65537 (0 : Byte)).length % 2 = 1 ∧ 65536 < (List.replicate 65537 (0 : Byte)).length) := by
  simp only [List.length_replicate]
  decide

theorem witness_ImageLoadsAsLittleEndianWords :
    Memory.wf (boot [7, 8, 9]).mem = true ∧ (∃ t, loadImage [0x13, 0, 0x48, 1] (boot [7, 8, 9]) = .ok t) ∧
    ([0x13, 0, 0x48, 1] : List Byte)[2 * 1]? = some 0x48 ∧ ([0x13, 0, 0x48, 1] : List Byte)[2 * 1 + 1]? = some 1 ∧
    ([0x13, 0, 0x48, 1] : List Byte).length ≤ 2 * 2 := ⟨by decide, ⟨_, rfl⟩, rfl, rfl, by decide⟩

/-- Each pin driven, each pin at rest, and a push where there is room. -/
theorem witness_HostAccessWritesWhatItNames :
    Memory.wf (boot [21]).mem = true ∧ (⟨7, some 65535, 0, none, none⟩ : HostPins).reg = some (7, 65535) ∧
    (⟨0, none, 32767, some 1, none⟩ : HostPins).mem = some (32767, 1) ∧
    ((⟨0, none, 0, none, some (.push 5)⟩ : HostPins).stk = some (.push 5) ∧ (boot [21]).stackCap ≠ some (boot [21]).stack.length) ∧
    (⟨0, none, 0, none, some .pop⟩ : HostPins).stk = some .pop ∧ idle.reg = none := by decide

theorem witness_PeekShowsTheDecodersAnswer : (boot [9, 32768, 32769, 5]).peek.valid = true ∧ (boot [22]).peek.valid = false := by decide

/-- Steps with the sink ready and not ready. -/
theorem witness_PortSignalsAreTheBytesMoved :
    (∃ t, step (boot [19, 65]) = .next t) ∧ (boot [19, 65]).env.outNow = .ready ∧
    (∃ t, step (withPorts (boot [19, 65]) .none .notReady) = .next t) ∧ (withPorts (boot [19, 65]) .none .notReady).env.outNow ≠ .ready :=
  ⟨⟨_, rfl⟩, rfl, ⟨_, rfl⟩, by decide⟩

/-- A cycle that steps, one with `run_en` = 0 and one with `rst` = 1, each at an `in` with a byte waiting. -/
theorem witness_PortOutputsAreTheBytesOfTheCycle :
    (∃ t, cycle ⟨false, true, idle⟩ (withPorts (boot [20, 32768]) (.byte 65) .ready) = .next t) ∧
    (∃ t, cycle ⟨false, false, idle⟩ (withPorts (boot [20, 32768]) (.byte 65) .ready) = .next t) ∧
    (∃ t, cycle ⟨true, true, idle⟩ (withPorts (boot [20, 32768]) (.byte 65) .ready) = .next t) ∧
    (false = false ∨ false = true) ∧ (true = false ∨ true = true) := ⟨⟨_, rfl⟩, ⟨_, rfl⟩, ⟨_, rfl⟩, by decide, by decide⟩

/-- R28: the ports of a pending `in` and a pending `out`, in a cycle that steps and in idle ones. -/
theorem test_idle_core_drives_no_port :
    (withPorts (boot [20, 32768]) (.byte 65) .ready).inPort ⟨false, true, idle⟩ = some 65 ∧
    (withPorts (boot [20, 32768]) (.byte 65) .ready).inPort ⟨false, false, idle⟩ = none ∧
    (boot [19, 65]).outPort ⟨false, true, idle⟩ = some 65 ∧
    (boot [19, 65]).outPort ⟨false, false, idle⟩ = none ∧
    (boot [19, 65]).outPort ⟨true, true, idle⟩ = none := by decide

/-- R29: the one `h_reg_sel` and the one `h_mem_addr` select what a cycle writes and what it reads: the next cycle with them reads what was written. -/
theorem test_host_reads_where_it_writes :
    after (cycle ⟨false, false, ⟨3, some 9, 32767, some 21, some (.push 5)⟩⟩ (boot [21]))
      (fun t => (t.corePorts ⟨false, false, ⟨3, none, 32767, none, none⟩⟩).host) = some (some ⟨9, 21, 5, 1⟩) := by decide

end Sys2Proof.Tests
end

section
/-! PROOFS, 10_state.md: which instructions and pins write a register (R9). -/

namespace Sys2Proof.Machine

variable {i : Instr} {s t : State}

/-! ## What an instruction does to the registers -/

/-- R59: the instructions with a Destination, by opcode. -/
theorem destination_isSome_iff (i : Instr) :
    i.destination.isSome = true ↔ i.opcode ∈ [1, 3, 4, 5, 9, 10, 11, 12, 13, 14, 15, 20] := by
  cases i <;> simp [Instr.destination, Instr.opcode]

/-- All an instruction can do to the registers: nothing, or one write to its destination. -/
theorem exec_regs (h : exec i s = .next t) :
    t.regs = s.regs ∨ ∃ d v, i.destination = some d ∧ t.regs = s.regs.set d v := by
  cases i with
  | halt => obtain rfl := exec_halt_next.1 h; exact .inl rfl
  | set => obtain rfl := exec_set_next.1 h; exact .inr ⟨_, _, rfl, rfl⟩
  | push => obtain ⟨-, rfl⟩ | ⟨-, rfl⟩ := exec_push_next.1 h <;> exact .inl rfl
  | pop =>
    obtain ⟨-, rfl⟩ | ⟨v, _, -, rfl⟩ := exec_pop_next.1 h
    · exact .inl rfl
    · exact .inr ⟨_, v, rfl, rfl⟩
  | eq => obtain rfl := exec_eq_next.1 h; exact .inr ⟨_, _, rfl, rfl⟩
  | gt => obtain rfl := exec_gt_next.1 h; exact .inr ⟨_, _, rfl, rfl⟩
  | jmp => obtain rfl := exec_jmp_next.1 h; exact .inl rfl
  | jt => obtain rfl := exec_jt_next.1 h; exact .inl rfl
  | jf => obtain rfl := exec_jf_next.1 h; exact .inl rfl
  | add => obtain rfl := exec_add_next.1 h; exact .inr ⟨_, _, rfl, rfl⟩
  | mult => obtain rfl := exec_mult_next.1 h; exact .inr ⟨_, _, rfl, rfl⟩
  | mod =>
    obtain ⟨-, rfl⟩ | ⟨-, rfl⟩ := exec_mod_next.1 h
    · exact .inl rfl
    · exact .inr ⟨_, _, rfl, rfl⟩
  | and => obtain rfl := exec_and_next.1 h; exact .inr ⟨_, _, rfl, rfl⟩
  | or => obtain rfl := exec_or_next.1 h; exact .inr ⟨_, _, rfl, rfl⟩
  | not => obtain rfl := exec_not_next.1 h; exact .inr ⟨_, _, rfl, rfl⟩
  | rmem =>
    obtain ⟨-, rfl⟩ | ⟨-, rfl⟩ := exec_rmem_next.1 h
    · exact .inl rfl
    · exact .inr ⟨_, _, rfl, rfl⟩
  | wmem => obtain ⟨-, rfl⟩ | ⟨-, rfl⟩ := exec_wmem_next.1 h <;> exact .inl rfl
  | call => obtain ⟨-, rfl⟩ | ⟨-, rfl⟩ := exec_call_next.1 h <;> exact .inl rfl
  | ret => obtain ⟨-, rfl⟩ | ⟨_, _, -, rfl⟩ := exec_ret_next.1 h <;> exact .inl rfl
  | out =>
    obtain ⟨-, rfl⟩ | ⟨-, -, rfl⟩ | ⟨-, -, rfl⟩ | ⟨-, -, rfl⟩ := exec_out_next.1 h <;> exact .inl rfl
  | inp =>
    obtain ⟨-, rfl⟩ | ⟨-, rfl⟩ | ⟨-, rfl⟩ | ⟨x, -, -, rfl⟩ := exec_inp_next.1 h
    · exact .inl rfl
    · exact .inl rfl
    · exact .inl rfl
    · exact .inr ⟨_, zext16 x, rfl, rfl⟩
  | noop => obtain rfl := exec_noop_next.1 h; exact .inl rfl

/-- R9: an instruction leaves every register but its destination unchanged. -/
theorem exec_reg_of_ne_destination (h : exec i s = .next t) {r : RegIdx} (hr : i.destination ≠ some r) :
    t.reg r = s.reg r := by
  obtain hregs | ⟨d, v, hd, hregs⟩ := exec_regs h
  · exact State.reg_congr hregs r
  · have hrd : r ≠ d := fun e => hr (e ▸ hd)
    calc t.reg r = (s.setReg d v).reg r := State.reg_congr (s := s.setReg d v) hregs r
      _ = s.reg r := State.reg_setReg_other s v hrd

/-! ## Each instruction with a Destination can write any register -/

/-- A state with all registers 0 and a 1 waiting on the stack, in memory and at the input port. -/
def writerStart : State :=
  { State.reset with mem := [(0, 1)], stack := [1], env := { Env.reset with inSched := [.byte 1] } }

/-- One instruction with destination `r` for each opcode that has a Destination; from `writerStart` each writes a word that is not 0. -/
def writers (r : RegIdx) : List Instr :=
  [.set r (.imm 1), .pop r, .eq r (.imm 0) (.imm 0), .gt r (.imm 1) (.imm 0), .add r (.imm 1) (.imm 0), .mult r (.imm 1) (.imm 1),
    .mod r (.imm 1) (.imm 2), .and r (.imm 1) (.imm 1), .or r (.imm 1) (.imm 0), .not r (.imm 0), .rmem r (.imm 0), .inp r]

theorem writers_opcodes (r : RegIdx) : (writers r).map Instr.opcode = [1, 3, 4, 5, 9, 10, 11, 12, 13, 14, 15, 20] := rfl

theorem writers_destination (r : RegIdx) : ∀ i ∈ writers r, i.destination = some r := by
  simp [writers, Instr.destination]

theorem writerStart_reg (r : RegIdx) : writerStart.reg r = 0 := by
  simp [writerStart, State.reset, State.reg]

/-- A write-back gives the register the word it names. -/
theorem writeBack_writes (i : Instr) (d : RegIdx) (v : Word) (s : State) : ∃ t, writeBack i d v s = .next t ∧ t.reg d = v :=
  ⟨_, rfl, by simp⟩

/-- From `writerStart` each of the writers ends in a write-back of a word that is not 0. -/
theorem writers_exec (r : RegIdx) : ∀ i ∈ writers r, ∃ v s1, v ≠ 0 ∧ exec i writerStart = writeBack i r v s1 := by
  have hone : (1 : Word) ≠ 0 := by decide
  have hnot : aluNot 0 ≠ 0 := by decide
  simp only [writers, List.forall_mem_cons]
  exact ⟨⟨1, _, hone, rfl⟩, ⟨1, _, hone, rfl⟩, ⟨1, _, hone, rfl⟩, ⟨1, _, hone, rfl⟩, ⟨1, _, hone, rfl⟩, ⟨1, _, hone, rfl⟩,
    ⟨1, _, hone, rfl⟩, ⟨1, _, hone, rfl⟩, ⟨1, _, hone, rfl⟩, ⟨_, _, hnot, rfl⟩, ⟨1, _, hone, rfl⟩, ⟨1, _, hone, rfl⟩,
    List.forall_mem_nil _⟩

theorem writers_change_reg {r : RegIdx} (hi : i ∈ writers r) :
    ∃ t, exec i writerStart = .next t ∧ t.reg r ≠ writerStart.reg r := by
  obtain ⟨v, s1, hv, hexec⟩ := writers_exec r i hi
  obtain ⟨t, ht, hreg⟩ := writeBack_writes i r v s1
  exact ⟨t, hexec.trans ht, by rwa [hreg, writerStart_reg]⟩

/-- R9: an instruction with a Destination can change any register. -/
theorem exists_exec_changes_reg {n : Nat} (r : RegIdx) (hn : n ∈ [1, 3, 4, 5, 9, 10, 11, 12, 13, 14, 15, 20]) :
    ∃ (i : Instr) (s t : State), i.opcode = n ∧ i.destination = some r ∧ exec i s = .next t ∧ t.reg r ≠ s.reg r := by
  rw [← writers_opcodes r, List.mem_map] at hn
  obtain ⟨i, hi, hop⟩ := hn
  obtain ⟨t, ht, hne⟩ := writers_change_reg hi
  exact ⟨i, writerStart, t, hop, writers_destination r i hi, ht, hne⟩

/-! ## What a step and the host do to the registers -/

/-- The core executes an instruction when it is Running and the words at pc decode to it (R22). -/
theorem State.executing_eq_some : s.executing = some i ↔ s.status = .running ∧ ∃ n, decodeAt s = .ok (i, n) := by
  unfold State.executing
  split
  · next h => simp [h]
  · next h => split <;> simp [*]

/-- A step that changes a register executes an instruction with that destination. -/
theorem executing_of_step_changes_reg (h : step s = .next t) {r : RegIdx} (hr : t.reg r ≠ s.reg r) :
    ∃ i, s.executing = some i ∧ i.destination = some r := by
  obtain ⟨-, rfl⟩ | ⟨-, e, -, rfl⟩ | ⟨hrun, i, n, hdec, hexec⟩ := step_next.1 h
  · exact absurd (State.reg_setResult s .halt r) hr
  · exact absurd (State.reg_failed s (.decode e) r) hr
  · exact ⟨i, State.executing_eq_some.2 ⟨hrun, n, hdec⟩, not_not.1 fun hd => hr (exec_reg_of_ne_destination hexec hd)⟩

/-- Of the host's pins only the register write reaches the registers. -/
theorem hostAccess_reg (p : HostPins) (s : State) (r : RegIdx) : (hostAccess p s).reg r = (hostReg p.reg s).reg r :=
  State.reg_congr (by simp [hostAccess]) r

theorem hostReg_reg_other {p : Option (RegIdx × Word)} {r : RegIdx} (h : p.map Prod.fst ≠ some r) (s : State) :
    (hostReg p s).reg r = s.reg r := by
  cases p with
  | none => rfl
  | some iv => exact State.reg_setReg_other s iv.2 fun e => h (e ▸ rfl)

end Sys2Proof.Machine

open Sys2Proof Sys2Proof.Machine

/-- Settles O37: `exec_regs` is the frame, `writers` the instructions that change each register, and the step and the host are
read off their inversion lemmas. -/
theorem onlyTheDestinationRegisterIsWritten : Obligations.OnlyTheDestinationRegisterIsWritten := by
  refine ⟨fun _ _ => rfl, destination_isSome_iff, fun _ _ _ h _ hr => exec_reg_of_ne_destination h hr,
    fun _ r hn => exists_exec_changes_reg r hn, fun _ _ h _ hr => executing_of_step_changes_reg h hr,
    fun p s r hr => ?_, fun p s r v hp => ?_⟩
  · rw [hostAccess_reg, hostReg_reg_other hr]
  · rw [hostAccess_reg, hp]
    exact State.reg_setReg_same s r v

end

section
/-! PROOFS, 30_encoding.md: the classes of an operand word by its bits (R50 to R53). -/

namespace Sys2Proof

variable {w n : Word} {i : RegIdx}

/-! ## The three classes of an operand word -/

/-- R50: bit 15 clear makes a literal. -/
theorem literal_of_tagBit_zero (h : w.toNat / 32768 = 0) : w.toNat < 32768 := by omega

/-- R50: bit 15 set and bits 14 to 3 zero make a register reference. -/
theorem register_of_bits (ht : w.toNat / 32768 = 1) (hb : w.toNat / 8 % 4096 = 0) :
    32768 ≤ w.toNat ∧ w.toNat < 32776 := by omega

/-- R50: bit 15 set and bits 14 to 3 not all zero make no operand. -/
theorem invalid_of_bits (ht : w.toNat / 32768 = 1) (hb : w.toNat / 8 % 4096 ≠ 0) : 32776 ≤ w.toNat := by omega

/-! ## What a decoded operand says about its word -/

theorem encodeSrc_reg_mod_eight (i : RegIdx) : i.val = (encodeSrc (.reg i)).toNat % 8 := by
  rw [← indexBits_val, indexBits_encodeSrc]

/-- R53: an immediate is its whole word, and only a literal gives one. -/
theorem decodeSrc_imm_inv (h : decodeSrc w = .ok (.imm n)) : n = w ∧ w.toNat < 32768 := by
  obtain ⟨hwf, rfl⟩ := decodeSrc_eq_ok h
  exact ⟨rfl, by simpa [Src.wf] using hwf⟩

/-- R53: a Source register's index is `w[2:0]`. -/
theorem decodeSrc_reg_inv (h : decodeSrc w = .ok (.reg i)) : i.val = w.toNat % 8 := by
  obtain ⟨-, rfl⟩ := decodeSrc_eq_ok h
  exact encodeSrc_reg_mod_eight i

/-- R53: so is a Destination's. -/
theorem decodeDst_inv (h : decodeDst w = .ok i) : i.val = w.toNat % 8 := by
  obtain rfl := decodeDst_eq_ok h
  exact encodeSrc_reg_mod_eight i

/-- R53: the 16-bit value of a literal is `zext_16(w[14:0])`. -/
theorem zext_low15_of_literal (h : w.toNat < 32768) : (w.setWidth 15).setWidth 16 = w := by
  apply BitVec.eq_of_toNat_eq
  rw [BitVec.toNat_setWidth, BitVec.toNat_setWidth, Nat.mod_eq_of_lt (a := w.toNat) h, Nat.mod_eq_of_lt w.isLt]

/-! ## Operand decoding is total -/

theorem decodeSrc_total (w : Word) :
    (∃ n, decodeSrc w = .ok (.imm n)) ∨ (∃ i, decodeSrc w = .ok (.reg i)) ∨
      decodeSrc w = .error (.invalidSrcOperand w) := by
  rcases Nat.lt_or_ge w.toNat 32768 with hlit | htag
  · exact .inl ⟨w, decodeSrc_literal hlit⟩
  · rcases Nat.lt_or_ge w.toNat 32776 with hreg | hbad
    · exact .inr (.inl ⟨indexBits w, decodeSrc_register htag hreg⟩)
    · exact .inr (.inr (decodeSrc_invalid hbad))

theorem decodeDst_total (w : Word) :
    (∃ i, decodeDst w = .ok i) ∨ decodeDst w = .error (.invalidDstOperand w) := by
  by_cases hbad : w.toNat < 32768 ∨ 32776 ≤ w.toNat
  · exact .inr (decodeDst_invalid hbad)
  · exact .inl ⟨indexBits w, decodeDst_register (by omega) (by omega)⟩

end Sys2Proof

open Sys2Proof Sys2Proof.Machine

/-- Settles O3: the bits put the word in one of the three classes, and each class has its `decodeSrc` rule. -/
theorem sourceOperandDecodesByItsBits : Obligations.SourceOperandDecodesByItsBits := by
  refine fun w => ⟨fun ht => ?_, fun ht hb => ?_, fun ht hb => ?_⟩
  · have hlit := literal_of_tagBit_zero ht
    exact ⟨decodeSrc_literal hlit, Nat.le_of_lt_succ hlit⟩
  · obtain ⟨hlo, hhi⟩ := register_of_bits ht hb
    exact ⟨indexBits w, indexBits_val w, decodeSrc_register hlo hhi⟩
  · exact decodeSrc_invalid (invalid_of_bits ht hb)

/-- Settles O4: the same classes, of which `decodeDst` accepts the register references alone. -/
theorem destinationOperandIsARegisterOnly : Obligations.DestinationOperandIsARegisterOnly := by
  refine fun w => ⟨fun ht hb => ?_, fun ht hb => ?_, fun ht => ?_⟩
  · obtain ⟨hlo, hhi⟩ := register_of_bits ht hb
    exact ⟨indexBits w, indexBits_val w, decodeDst_register hlo hhi⟩
  · exact decodeDst_invalid (.inr (invalid_of_bits ht hb))
  · exact decodeDst_invalid (.inl (literal_of_tagBit_zero ht))

/-- Settles O5: the inversion lemmas give what was decoded, the totality lemmas that nothing else can come out. -/
theorem immediateIsTheWholeWord : Obligations.ImmediateIsTheWholeWord := by
  refine fun w s => ⟨fun n h => ?_, fun _ => decodeSrc_reg_inv, fun _ => decodeDst_inv, decodeSrc_total w, decodeDst_total w⟩
  obtain ⟨rfl, hlit⟩ := decodeSrc_imm_inv h
  exact ⟨rfl, Nat.le_of_lt_succ hlit, zext_low15_of_literal hlit, rfl⟩

end

section
/-! PROOFS, 40_machine_control.md: noop (R65), over the fetch at pc (R55) and the decode failure of a step (R22). -/

namespace Sys2Proof.Machine

variable {s : State}

/-! ## The fetch at pc -/

/-- R55: an address in the store is fetched as the word there, whatever follows it. -/
theorem fetchWords_in_store {m : Memory} {p : Nat} (h : p < Config.memWords) (n : Nat) :
    fetchWords m (n + 1) p = readWord m p :: fetchWords m n (p + 1) := if_pos h

/-- R55: at a pc past the store the decode fails with InvalidIp(pc). -/
theorem decodeAt_past (h : Config.memWords ≤ s.pc.toNat) : decodeAt s = .error (.invalidIp s.pc) := by
  rw [decodeAt, fetchWords_past h, decode, nextWord_nil, BitVec.ofNat_toNat, BitVec.setWidth_eq]

/-- R65: 0x0015 is noop whatever words follow it. -/
theorem decodeAt_noop (hpc : s.pc.toNat < Config.memWords) (hw : readWord s.mem s.pc.toNat = 0x0015) :
    decodeAt s = .ok (.noop, BitVec.ofNat 16 (s.pc.toNat + 1)) := by
  rw [decodeAt, Config.maxLen, fetchWords_in_store hpc, hw]
  rfl

/-! ## The step -/

/-- R22: a Running step whose words do not decode fails so. -/
theorem step_of_decodeAt_error {e : DecodeFailure} (hrun : s.status = .running) (h : decodeAt s = .error e) :
    step s = fail (.decode e) s := step_next.2 (.inr (.inl ⟨hrun, e, h, rfl⟩))

/-- An address in the store has its successor as the next address, with no wrap. -/
theorem pc_add_one_toNat (h : s.pc.toNat < Config.memWords) : (s.pc + 1).toNat = s.pc.toNat + 1 :=
  BitVec.toNat_add_of_lt (Nat.lt_of_lt_of_le (Nat.succ_lt_succ h) (by decide))

/-- R65: noop goes on at pc + 1 and completes. -/
theorem exec_noop (s : State) : exec .noop s = .next ((s.setPc (s.pc + 1)).committed .done) := by
  rw [exec_noop_next, State.nextAddr_eq]
  rfl

end Sys2Proof.Machine

open Sys2Proof Sys2Proof.Machine

/-- Settles O21: `exec_noop` is what noop does, and pc alone decides whether the step reaches it. -/
theorem noopOnlyAdvances : Obligations.NoopOnlyAdvances := by
  refine ⟨rfl, exec_noop, fun s hrun hpc => step_of_decodeAt_error hrun (decodeAt_past hpc), fun s hrun hpc hw => ?_⟩
  have hstep : step s = .next ((s.setPc (s.pc + 1)).committed .done) :=
    step_next.2 (.inr (.inr ⟨hrun, .noop, _, decodeAt_noop hpc hw, exec_noop s⟩))
  exact ⟨_, hstep, rfl, pc_add_one_toNat hpc⟩

end

section
/-! PROOFS, 45_memory_access.md: rmem and wmem at a data address in bounds and out of bounds (R85, R86, R87). -/

namespace Sys2Proof.Machine

variable {s : State} {a : Src}

/-! ## A data address in the store -/

/-- R86: rmem at an address in the store completes with the word there in its destination. -/
theorem exec_rmem_in_store (h : (s.val a).toNat < Config.memWords) (d : RegIdx) :
    exec (.rmem d a) s =
      .next (((s.setReg d (readWord s.mem (s.val a).toNat)).setPc (s.nextAddr (.rmem d a))).committed .done) :=
  exec_rmem_next.2 (.inr ⟨h, rfl⟩)

/-- R87: wmem at an address in the store completes with its value written there. -/
theorem exec_wmem_in_store (h : (s.val a).toNat < Config.memWords) (b : Src) :
    exec (.wmem a b) s =
      .next (((s.setMem (writeWord s.mem (s.val a).toNat (s.val b))).setPc (s.nextAddr (.wmem a b))).committed .done) :=
  exec_wmem_next.2 (.inr ⟨h, rfl⟩)

/-! ## A data address past the store -/

/-- R85: the address is not wrapped; rmem fails with it. -/
theorem exec_rmem_past (h : Config.memWords ≤ (s.val a).toNat) (d : RegIdx) :
    exec (.rmem d a) s = fail (.invalidAddress (s.val a)) s := exec_rmem_next.2 (.inl ⟨h, rfl⟩)

/-- R85: so does wmem, whatever its value operand. -/
theorem exec_wmem_past (h : Config.memWords ≤ (s.val a).toNat) (b : Src) :
    exec (.wmem a b) s = fail (.invalidAddress (s.val a)) s := exec_wmem_next.2 (.inl ⟨h, rfl⟩)

/-! ## The word written -/

/-- The word at the address just written is the value written. -/
theorem readWord_writeWord_same {m : Memory} {k : Nat} {v : Word} (hm : Memory.wf m = true) (hk : k < Config.memWords) :
    readWord (writeWord m k v) k = v := by
  rw [Memory.readWord_writeWord hm hk, if_pos rfl]

end Sys2Proof.Machine

open Sys2Proof Sys2Proof.Machine

/-- Settles O32: the operand's value alone decides between the state in which each instruction completes and its failure. -/
theorem dataAddressIsTheOperandsValue : Obligations.DataAddressIsTheOperandsValue := by
  refine fun s a b c hwf => ⟨fun hin => ⟨?_, ?_⟩, fun hout => ⟨exec_rmem_past hout a, exec_wmem_past hout c⟩⟩
  · exact ⟨_, exec_rmem_in_store hin a, rfl, s.nextAddr_eq _, State.reg_setReg_same s a _,
      fun _ hr => State.reg_setReg_other s _ hr⟩
  · exact ⟨_, exec_wmem_in_store hin c, rfl, s.nextAddr_eq _, readWord_writeWord_same hwf hin, fun _ => rfl⟩

end

section
/-! PROOFS, 70_reset_and_hazards.md: a write of the word store is what the next fetch reads (R114), and the two failures of a load (R111). -/

namespace Sys2Proof.Machine

/-! ## A word written is the word fetched -/

/-- R114: a fetch that covers the address just written gives the value written, at that address's place. -/
theorem fetchWords_writeWord_getElem? {m : Memory} {a n p k : Nat} (hm : Memory.wf m = true) (ha : a < Config.memWords)
    (hk : k < n) (hpk : p + k = a) (v : Word) : (fetchWords (writeWord m a v) n p)[k]? = some v := by
  subst hpk
  rw [Memory.fetchWords_getElem?, if_pos ⟨hk, ha⟩, readWord_writeWord_same hm ha]

/-- R31: the memory pins write their word; the register and stack pins of the cycle do not reach the store. -/
theorem hostAccess_mem_of_write {p : HostPins} {a : BitVec 15} {v : Word} (h : p.mem = some (a, v)) (s : State) :
    (hostAccess p s).mem = writeWord s.mem a.toNat v := by
  rw [hostAccess, hostStack_mem, h, hostMem, State.setMem_mem, hostReg_mem]

/-! ## How a load ends -/

variable {bytes : List Byte}

/-- R111: an odd byte count is BadBinary, whatever the size (log 9). -/
theorem loadImage_of_odd (hodd : bytes.length % 2 = 1) (s : State) : loadImage bytes s = .error .badBinary := if_pos hodd

/-- R111: an even byte count past the store is ProgramTooLarge. -/
theorem loadImage_of_too_large (heven : bytes.length % 2 = 0) (hlarge : 65536 < bytes.length) (s : State) :
    loadImage bytes s = .error .programTooLarge := by
  have hodd : ¬bytes.length % 2 = 1 := by omega
  rw [loadImage, if_neg hodd]
  exact if_pos hlarge

end Sys2Proof.Machine

open Sys2Proof Sys2Proof.Machine

/-- Settles O45: wmem and the host's memory pins each write one word of the store, and a fetch reads the word written. -/
theorem writesAreFetchedByTheNextStep : Obligations.WritesAreFetchedByTheNextStep := by
  refine ⟨fun s t a b hwf hin hexec n p k hk hpk => ?_, fun s p a v hwf hmem n q k hk hqk => ?_, fun _ _ => decodeAt_congr⟩
  · rw [exec_wmem_in_store hin b] at hexec
    cases hexec
    exact fetchWords_writeWord_getElem? hwf hin hk hpk _
  · rw [hostAccess_mem_of_write hmem]
    exact fetchWords_writeWord_getElem? hwf a.isLt hk hqk v

/-- Settles O55: the byte count alone decides, its parity before its size. -/
theorem badImagesDoNotLoad : Obligations.BadImagesDoNotLoad := by
  refine fun bytes s => ⟨fun hodd _ => loadImage_of_odd hodd s, fun heven hlarge => loadImage_of_too_large heven hlarge s,
    fun hbad => ?_, fun heven hfits => ⟨_, loadImage_ok.2 ⟨heven, hfits, rfl⟩⟩⟩
  rcases Nat.mod_two_eq_zero_or_one bytes.length with heven | hodd
  · have hlarge : 65536 < bytes.length := by omega
    exact ⟨_, loadImage_of_too_large heven hlarge s⟩
  · exact ⟨_, loadImage_of_odd hodd s⟩

end

section
/-! PROOFS, 30_encoding.md sections 1 to 7: the decoder against the encoder, over the rows of the opcode map. -/

namespace Sys2Proof

variable {i : Instr} {p q : Nat} {row : Row} {d : Option RegIdx} {ss : List Src}

/-! ## Rows and the instructions they make -/

/-- R54: a row makes an instruction of a Destination, where it has one, and of Sources. -/
inductive Row.Makes : Row → Option RegIdx → List Src → Instr → Prop
  | none (i : Instr) : Makes (.none i) .none [] i
  | s (mk : Src → Instr) (a : Src) : Makes (.s mk) .none [a] (mk a)
  | d (mk : RegIdx → Instr) (a : RegIdx) : Makes (.d mk) (some a) [] (mk a)
  | ss (mk : Src → Src → Instr) (a b : Src) : Makes (.ss mk) .none [a, b] (mk a b)
  | ds (mk : RegIdx → Src → Instr) (a : RegIdx) (b : Src) : Makes (.ds mk) (some a) [b] (mk a b)
  | dss (mk : RegIdx → Src → Src → Instr) (a : RegIdx) (b c : Src) : Makes (.dss mk) (some a) [b, c] (mk a b c)

/-- Operands in encoding order: the Destination first. -/
def operandList (d : Option RegIdx) (ss : List Src) : List Src := (d.map Src.reg).toList ++ ss

theorem Instr.operands_eq (i : Instr) : i.operands = operandList i.destination i.sources := by
  unfold Instr.operands operandList
  cases i.destination <;> rfl

theorem encode_eq (i : Instr) :
    encode i = BitVec.ofNat 16 i.opcode :: (operandList i.destination i.sources).map encodeSrc := by
  rw [encode, Instr.operands_eq]

theorem Instr.length_eq (i : Instr) : i.length = (operandList i.destination i.sources).length + 1 := by
  cases i <;> rfl

/-- R59, R61: an encoding has the instruction's length. -/
theorem encode_length (i : Instr) : (encode i).length = i.length := by
  rw [encode_eq, Instr.length_eq, List.length_cons, List.length_map]

theorem Instr.length_le_four (i : Instr) : i.length ≤ 4 := by
  cases i <;> simp [Instr.length]

theorem Instr.one_le_length (i : Instr) : 1 ≤ i.length := by
  rw [Instr.length_eq]
  exact Nat.le_add_left 1 _

theorem Instr.opcode_lt (i : Instr) : i.opcode < 22 := by
  cases i <;> simp [Instr.opcode]

theorem Instr.wf_iff (i : Instr) : i.wf = true ↔ ∀ o ∈ i.sources, o.wf = true := List.all_eq_true

/-- R54: the row at an instruction's opcode makes that instruction. -/
theorem opcodeMap_makes (i : Instr) :
    ∃ row, opcodeMap[i.opcode]? = some row ∧ row.Makes i.destination i.sources i := by
  cases i <;> exact ⟨_, rfl, by constructor⟩

/-- R54: every row makes the instructions of its own opcode alone, with the operands it was given. -/
theorem Row.Makes.of_opcodeMap {n : Nat} (hm : row.Makes d ss i) (hrow : opcodeMap[n]? = some row) :
    i.opcode = n ∧ i.destination = d ∧ i.sources = ss := by
  have hn : n < 22 := opcodeMap_length ▸ (List.getElem?_eq_some_iff.1 hrow).1
  interval_cases n <;> obtain rfl := Option.some.inj hrow <;> cases hm <;> exact ⟨rfl, rfl, rfl⟩

/-! ## The operand words of a row -/

/-- R55: the operand words of an encoding decode to the instruction. -/
theorem decodeOperands_encode (hm : row.Makes d ss i) (hwf : ∀ o ∈ ss, o.wf = true) (q : Nat) (rest : List Word) :
    decodeOperands q ((operandList d ss).map encodeSrc ++ rest) row = decoded i (q + (operandList d ss).length) := by
  cases hm with
  | none => rfl
  | s mk a => exact nextSrc_ok (decodeSrc_encode (hwf a (by simp)))
  | d mk a => exact nextDst_ok (decodeDst_encode a)
  | ss mk a b =>
    exact (nextSrc_ok (decodeSrc_encode (hwf a (by simp)))).trans (nextSrc_ok (decodeSrc_encode (hwf b (by simp))))
  | ds mk a b => exact (nextDst_ok (decodeDst_encode a)).trans (nextSrc_ok (decodeSrc_encode (hwf b (by simp))))
  | dss mk a b c =>
    exact ((nextDst_ok (decodeDst_encode a)).trans (nextSrc_ok (decodeSrc_encode (hwf b (by simp))))).trans
      (nextSrc_ok (decodeSrc_encode (hwf c (by simp))))

/-- R55: operand words that decode are those of an encoding. -/
theorem decodeOperands_eq_ok {ws : List Word} {n : Word} (h : decodeOperands q ws row = .ok (i, n)) :
    ∃ d ss rest, row.Makes d ss i ∧ (∀ o ∈ ss, o.wf = true) ∧ ws = (operandList d ss).map encodeSrc ++ rest ∧
      n = BitVec.ofNat 16 (q + (operandList d ss).length) := by
  cases row with
  | none =>
    cases h
    exact ⟨none, [], ws, .none _, by simp, rfl, rfl⟩
  | s mk =>
    obtain ⟨a, rest, ha, rfl, hk⟩ := nextSrc_eq_ok h
    cases hk
    exact ⟨none, [a], rest, .s mk a, by simp [ha], rfl, rfl⟩
  | d mk =>
    obtain ⟨a, rest, rfl, hk⟩ := nextDst_eq_ok h
    cases hk
    exact ⟨some a, [], rest, .d mk a, by simp, rfl, rfl⟩
  | ss mk =>
    obtain ⟨a, _, ha, rfl, h1⟩ := nextSrc_eq_ok h
    obtain ⟨b, rest, hb, rfl, hk⟩ := nextSrc_eq_ok h1
    cases hk
    exact ⟨none, [a, b], rest, .ss mk a b, by simp [ha, hb], rfl, rfl⟩
  | ds mk =>
    obtain ⟨a, _, rfl, h1⟩ := nextDst_eq_ok h
    obtain ⟨b, rest, hb, rfl, hk⟩ := nextSrc_eq_ok h1
    cases hk
    exact ⟨some a, [b], rest, .ds mk a b, by simp [hb], rfl, rfl⟩
  | dss mk =>
    obtain ⟨a, _, rfl, h1⟩ := nextDst_eq_ok h
    obtain ⟨b, _, hb, rfl, h2⟩ := nextSrc_eq_ok h1
    obtain ⟨c, rest, hc, rfl, hk⟩ := nextSrc_eq_ok h2
    cases hk
    exact ⟨some a, [b, c], rest, .dss mk a b c, by simp [hb, hc], rfl, rfl⟩

/-- R55: behind the first `j` operand words of an encoding the decoder reads place `j`: a Destination where `j` is 0 and the
instruction has one, else a Source. -/
theorem decodeOperands_take (hm : row.Makes d ss i) (hwf : ∀ o ∈ ss, o.wf = true) (q j : Nat)
    (hj : j < (operandList d ss).length) :
    (j = 0 ∧ d.isSome = true ∧ ∃ k, ∀ ws,
      decodeOperands q (((operandList d ss).map encodeSrc).take j ++ ws) row = nextDst (q + j) ws k) ∨
    (¬(j = 0 ∧ d.isSome = true) ∧ ∃ k, ∀ ws,
      decodeOperands q (((operandList d ss).map encodeSrc).take j ++ ws) row = nextSrc (q + j) ws k) := by
  cases hm with
  | none => simp [operandList] at hj
  | s mk a =>
    obtain rfl : j = 0 := by simpa [operandList] using hj
    exact .inr ⟨by simp, _, fun _ => rfl⟩
  | d mk a =>
    obtain rfl : j = 0 := by simpa [operandList] using hj
    exact .inl ⟨rfl, rfl, _, fun _ => rfl⟩
  | ss mk a b =>
    obtain rfl | rfl : j = 0 ∨ j = 1 := by simp [operandList] at hj; omega
    · exact .inr ⟨by simp, _, fun _ => rfl⟩
    · exact .inr ⟨by simp, _, fun _ => nextSrc_ok (decodeSrc_encode (hwf a (by simp)))⟩
  | ds mk a b =>
    obtain rfl | rfl : j = 0 ∨ j = 1 := by simp [operandList] at hj; omega
    · exact .inl ⟨rfl, rfl, _, fun _ => rfl⟩
    · exact .inr ⟨by simp, _, fun _ => nextDst_ok (decodeDst_encode a)⟩
  | dss mk a b c =>
    obtain rfl | rfl | rfl : j = 0 ∨ j = 1 ∨ j = 2 := by simp [operandList] at hj; omega
    · exact .inl ⟨rfl, rfl, _, fun _ => rfl⟩
    · exact .inr ⟨by simp, _, fun _ => nextDst_ok (decodeDst_encode a)⟩
    · exact .inr ⟨by simp, _, fun _ =>
        (nextDst_ok (decodeDst_encode a)).trans (nextSrc_ok (decodeSrc_encode (hwf b (by simp))))⟩

/-! ## No operand word is an illegal instruction -/

variable {ws : List Word} {v : Word}

theorem nextSrc_ne_illegal {k : Src → List Word → Decoded} (hk : ∀ o rest, k o rest ≠ .error (.illegalInstruction v)) :
    nextSrc q ws k ≠ .error (.illegalInstruction v) := by
  cases ws with
  | nil => simp
  | cons w rest =>
    obtain ⟨n, hn⟩ | ⟨r, hr⟩ | he := decodeSrc_total w
    · rw [nextSrc_ok hn]; exact hk _ _
    · rw [nextSrc_ok hr]; exact hk _ _
    · simp [nextSrc, he]

theorem nextDst_ne_illegal {k : RegIdx → List Word → Decoded} (hk : ∀ r rest, k r rest ≠ .error (.illegalInstruction v)) :
    nextDst q ws k ≠ .error (.illegalInstruction v) := by
  cases ws with
  | nil => simp
  | cons w rest =>
    obtain ⟨r, hr⟩ | he := decodeDst_total w
    · rw [nextDst_ok hr]; exact hk _ _
    · simp [nextDst, he]

theorem decodeOperands_ne_illegal : decodeOperands q ws row ≠ .error (.illegalInstruction v) := by
  have hdone : ∀ i n, decoded i n ≠ .error (.illegalInstruction v) := fun i n h => by cases h
  cases row with
  | none => exact hdone _ _
  | s mk => exact nextSrc_ne_illegal fun _ _ => hdone _ _
  | d mk => exact nextDst_ne_illegal fun _ _ => hdone _ _
  | ss mk => exact nextSrc_ne_illegal fun _ _ => nextSrc_ne_illegal fun _ _ => hdone _ _
  | ds mk => exact nextDst_ne_illegal fun _ _ => nextSrc_ne_illegal fun _ _ => hdone _ _
  | dss mk =>
    exact nextDst_ne_illegal fun _ _ => nextSrc_ne_illegal fun _ _ => nextSrc_ne_illegal fun _ _ => hdone _ _

/-! ## Whole instructions -/

theorem decode_cons_of_row {w : Word} (h : opcodeMap[w.toNat]? = some row) (p : Word) (ws : List Word) :
    decode p (w :: ws) = decodeOperands (p.toNat + 1) ws row := by
  rw [decode, nextWord_cons, h]

theorem decode_cons_of_no_row {w : Word} (h : opcodeMap[w.toNat]? = none) (p : Word) (ws : List Word) :
    decode p (w :: ws) = .error (.illegalInstruction w) := by
  rw [decode, nextWord_cons, h]

theorem opcode_toNat (i : Instr) : (BitVec.ofNat 16 i.opcode).toNat = i.opcode :=
  Nat.mod_eq_of_lt (i.opcode_lt.trans (by decide))

/-- R56: an encoding decodes to its instruction, whatever follows it. -/
theorem decode_encode (hwf : i.wf = true) (p : Word) (rest : List Word) :
    decode p (encode i ++ rest) = .ok (i, BitVec.ofNat 16 (p.toNat + i.length)) := by
  obtain ⟨row, hrow, hm⟩ := opcodeMap_makes i
  rw [encode_eq, List.cons_append, decode_cons_of_row (by rwa [opcode_toNat]),
    decodeOperands_encode hm (i.wf_iff.1 hwf), decoded, Instr.length_eq, Nat.add_assoc, Nat.add_comm 1]

/-- The words that decode are an encoding, with the address after it. -/
theorem decode_eq_ok {p n : Word} (h : decode p ws = .ok (i, n)) :
    i.wf = true ∧ (∃ rest, ws = encode i ++ rest) ∧ n = BitVec.ofNat 16 (p.toNat + i.length) := by
  cases ws with
  | nil => cases h
  | cons w ws =>
    cases hrow : opcodeMap[w.toNat]? with
    | none => rw [decode_cons_of_no_row hrow] at h; cases h
    | some row =>
      rw [decode_cons_of_row hrow] at h
      obtain ⟨d, ss, rest, hm, hwf, rfl, rfl⟩ := decodeOperands_eq_ok h
      obtain ⟨hop, rfl, rfl⟩ := hm.of_opcodeMap hrow
      refine ⟨i.wf_iff.2 hwf, ⟨rest, ?_⟩, ?_⟩
      · rw [encode_eq, hop, BitVec.ofNat_toNat, BitVec.setWidth_eq, List.cons_append]
      · rw [Instr.length_eq, Nat.add_assoc, Nat.add_comm 1]

/-- R55: behind the first `k` words of an encoding the decoder reads the operand of that place. -/
theorem decode_take (hwf : i.wf = true) (p : Word) {k : Nat} (h1 : 1 ≤ k) (hk : k < i.length) :
    (k = 1 ∧ i.destination.isSome = true ∧ ∃ f, ∀ ws, decode p ((encode i).take k ++ ws) = nextDst (p.toNat + k) ws f) ∨
    (¬(k = 1 ∧ i.destination.isSome = true) ∧
      ∃ f, ∀ ws, decode p ((encode i).take k ++ ws) = nextSrc (p.toNat + k) ws f) := by
  obtain ⟨row, hrow, hm⟩ := opcodeMap_makes i
  obtain ⟨j, rfl⟩ := Nat.exists_eq_add_of_le' h1
  have hdec : ∀ ws, decode p ((encode i).take (j + 1) ++ ws) = decodeOperands (p.toNat + 1)
      (((operandList i.destination i.sources).map encodeSrc).take j ++ ws) row := fun ws => by
    rw [encode_eq, List.take_succ_cons, List.cons_append, decode_cons_of_row (by rwa [opcode_toNat])]
  have hplace := decodeOperands_take hm (i.wf_iff.1 hwf) (p.toNat + 1) j (by rw [Instr.length_eq] at hk; omega)
  simpa only [hdec, Nat.add_eq_right, Nat.add_assoc, Nat.add_comm 1] using hplace

/-- R55: an instruction cut off by the end of the store fails at the address after its last word. -/
theorem decode_cut_off (hwf : i.wf = true) (p : Word) {k : Nat} (h1 : 1 ≤ k) (hk : k < i.length) :
    decode p ((encode i).take k) = .error (.invalidIp (BitVec.ofNat 16 (p.toNat + k))) := by
  rw [← List.append_nil ((encode i).take k)]
  obtain ⟨-, -, f, hf⟩ | ⟨-, f, hf⟩ := decode_take hwf p h1 hk
  · rw [hf, nextDst_nil]
  · rw [hf, nextSrc_nil]

end Sys2Proof

open Sys2Proof Sys2Proof.Machine

/-- Settles O1: `decode_encode`, by the row of the opcode map. -/
theorem decodingAnEncodingGivesTheInstruction : Obligations.DecodingAnEncodingGivesTheInstruction :=
  fun i p rest hwf => ⟨decode_encode hwf p rest, encode_length i⟩

/-- Settles O2: `decode_eq_ok`, the inverse of each row's decode. -/
theorem decodedWordsAreTheEncoding : Obligations.DecodedWordsAreTheEncoding := fun _ _ _ _ => decode_eq_ok

/-- Settles O6: the map has a row for the words below 22 alone, and no row's operands give an illegal instruction. -/
theorem illegalOpcodeWordsAreThoseFromTwentyTwo : Obligations.IllegalOpcodeWordsAreThoseFromTwentyTwo := by
  intro p w v rest
  cases hrow : opcodeMap[w.toNat]? with
  | none =>
    have hw : 22 ≤ w.toNat := opcodeMap_length ▸ List.getElem?_eq_none_iff.1 hrow
    simp [decode_cons_of_no_row hrow, hw, eq_comm]
  | some row =>
    have hw : w.toNat < 22 := opcodeMap_length ▸ (List.getElem?_eq_some_iff.1 hrow).1
    rw [decode_cons_of_row hrow]
    exact ⟨fun h => absurd h decodeOperands_ne_illegal, fun h => absurd h.2 (Nat.not_le.2 hw)⟩

/-- Settles O7: `decode_take` names the place that is read, and each kind of place refuses its bad words. -/
theorem firstBadOperandWordIsReported : Obligations.FirstBadOperandWordIsReported := by
  intro i p w k rest hwf h1 hk
  obtain ⟨hk1, hd, f, hf⟩ | ⟨hplace, f, hf⟩ := decode_take hwf p h1 hk
  · refine ⟨fun _ _ hbad => (hf _).trans (nextDst_bad hbad), fun hsrc _ => ?_⟩
    simp [hk1, hd] at hsrc
  · exact ⟨fun hk1 hd _ => absurd ⟨hk1, hd⟩ hplace, fun _ hbad => (hf _).trans (nextSrc_bad hbad)⟩

/-- Settles O9: each row's words, by evaluation. -/
theorem writtenOutWordsDecode : Obligations.WrittenOutWordsDecode := by
  unfold Obligations.WrittenOutWordsDecode
  decide

end

section
/-! PROOFS, 10_state.md section 9: the four ways an instruction ends (R21), with what each leaves; then the frames and the invariant, read off them. -/

namespace Sys2Proof.Machine

variable {i : Instr} {s s1 t : State} {f : Failure} {e : Env}

/-! ## The four ends of an instruction -/

/-- R94: the failures of an instruction, each with its cause and with the ports' environment after it. -/
inductive Fails (s : State) : Instr → Failure → Env → Prop
  | pop {d : RegIdx} : s.stack = [] → Fails s (.pop d) .stackUnderflow s.env
  | rmem {d : RegIdx} {b : Src} :
    Config.memWords ≤ (s.val b).toNat → Fails s (.rmem d b) (.invalidAddress (s.val b)) s.env
  | wmem {a b : Src} :
    Config.memWords ≤ (s.val a).toNat → Fails s (.wmem a b) (.invalidAddress (s.val a)) s.env
  | outWord {a : Src} : 255 < (s.val a).toNat → Fails s (.out a) (.invalidIOWord (s.val a)) s.env
  | outPort {a : Src} : (s.val a).toNat ≤ 255 → s.env.outNow = .error → Fails s (.out a) .ioError s.env.outStep
  | inPort {d : RegIdx} : s.env.inNow = .error → Fails s (.inp d) .ioError s.env.inStep
  | mod {d : RegIdx} {b c : Src} : s.val c = 0 → Fails s (.mod d b c) .modByZero s.env
  | push {a : Src} : s.stackCap = some s.stack.length → Fails s (.push a) .stackOverflow s.env
  | call {a : Src} : s.stackCap = some s.stack.length → Fails s (.call a) .stackOverflow s.env

/-- R91, R92: the waits of an instruction, with the ports' environment after each. -/
inductive Waits (s : State) : Instr → Env → Prop
  | noByte {d : RegIdx} : s.env.inNow = .none → Waits s (.inp d) s.env.inStep
  | carriageReturn {d : RegIdx} : s.env.inNow = .byte 13 → Waits s (.inp d) (s.env.take 13)
  | notReady {a : Src} : (s.val a).toNat ≤ 255 → s.env.outNow = .notReady → Waits s (.out a) s.env.outStep

/-- R12, R16, R38, R59: the state `s1` an instruction that completes commits. -/
structure Completes (i : Instr) (s s1 : State) : Prop where
  report : s1.report = s.report
  status : s1.status = s.status
  stackCap : s1.stackCap = s.stackCap
  pc : i.opcode ∉ [6, 7, 8, 17, 18] → s1.pc = s.nextAddr i
  mem : s1.mem = s.mem ∨
    ∃ a b, i = .wmem a b ∧ (s.val a).toNat < Config.memWords ∧ s1.mem = writeWord s.mem (s.val a).toNat (s.val b)
  stack : s1.stack = s.stack ∨
    ((∃ a, i = .push a ∨ i = .call a) ∧ s.stackCap ≠ some s.stack.length ∧ ∃ v, s1.stack = v :: s.stack) ∨
    (((∃ d, i = .pop d) ∨ i = .ret) ∧ ∃ v, s.stack = v :: s1.stack)
  env : (∀ a, i ≠ .out a) → (∀ d, i ≠ .inp d) → s1.env = s.env

/-- R21: an instruction fails, stalls, completes or halts. -/
inductive Ends (i : Instr) (s : State) : State → Prop
  | fails {f : Failure} {e : Env} : Fails s i f e → Ends i s ((s.setEnv e).failed f)
  | waits {e : Env} : Waits s i e → Ends i s ((s.setEnv e).setResult .stall)
  | completes {s1 : State} : Completes i s s1 → Ends i s (s1.committed .done)
  | halts : (i = .halt ∨ i = .ret ∧ s.stack = []) → Ends i s ((s.setStatus .halted).committed .halt)

theorem Completes.writeBack (i : Instr) (s : State) (d : RegIdx) (v : Word) :
    Completes i s ((s.setReg d v).setPc (s.nextAddr i)) :=
  ⟨rfl, rfl, rfl, fun _ => rfl, .inl rfl, .inl rfl, fun _ _ => rfl⟩

theorem Completes.jump (h : i.opcode ∈ [6, 7, 8, 17, 18]) (p : Word) : Completes i s (s.setPc p) :=
  ⟨rfl, rfl, rfl, fun hn => absurd h hn, .inl rfl, .inl rfl, fun _ _ => rfl⟩

/-- R21: every instruction ends in one of the four ways. -/
theorem ends_of_exec (h : exec i s = .next t) : Ends i s t := by
  cases i with
  | halt => obtain rfl := exec_halt_next.1 h; exact .halts (.inl rfl)
  | set => obtain rfl := exec_set_next.1 h; exact .completes (.writeBack ..)
  | push a =>
    obtain ⟨hfull, rfl⟩ | ⟨hroom, rfl⟩ := exec_push_next.1 h
    · exact .fails (.push hfull)
    · exact .completes ⟨rfl, rfl, rfl, fun _ => rfl, .inl rfl, .inr (.inl ⟨⟨a, .inl rfl⟩, hroom, _, rfl⟩), fun _ _ => rfl⟩
  | pop d =>
    obtain ⟨hempty, rfl⟩ | ⟨v, rest, htop, rfl⟩ := exec_pop_next.1 h
    · exact .fails (.pop hempty)
    · exact .completes ⟨rfl, rfl, rfl, fun _ => rfl, .inl rfl, .inr (.inr ⟨.inl ⟨d, rfl⟩, v, htop⟩), fun _ _ => rfl⟩
  | eq => obtain rfl := exec_eq_next.1 h; exact .completes (.writeBack ..)
  | gt => obtain rfl := exec_gt_next.1 h; exact .completes (.writeBack ..)
  | jmp => obtain rfl := exec_jmp_next.1 h; exact .completes (.jump (by simp [Instr.opcode]) _)
  | jt => obtain rfl := exec_jt_next.1 h; exact .completes (.jump (by simp [Instr.opcode]) _)
  | jf => obtain rfl := exec_jf_next.1 h; exact .completes (.jump (by simp [Instr.opcode]) _)
  | add => obtain rfl := exec_add_next.1 h; exact .completes (.writeBack ..)
  | mult => obtain rfl := exec_mult_next.1 h; exact .completes (.writeBack ..)
  | mod =>
    obtain ⟨hzero, rfl⟩ | ⟨-, rfl⟩ := exec_mod_next.1 h
    · exact .fails (.mod hzero)
    · exact .completes (.writeBack ..)
  | and => obtain rfl := exec_and_next.1 h; exact .completes (.writeBack ..)
  | or => obtain rfl := exec_or_next.1 h; exact .completes (.writeBack ..)
  | not => obtain rfl := exec_not_next.1 h; exact .completes (.writeBack ..)
  | rmem =>
    obtain ⟨hpast, rfl⟩ | ⟨-, rfl⟩ := exec_rmem_next.1 h
    · exact .fails (.rmem hpast)
    · exact .completes (.writeBack ..)
  | wmem a b =>
    obtain ⟨hpast, rfl⟩ | ⟨hin, rfl⟩ := exec_wmem_next.1 h
    · exact .fails (.wmem hpast)
    · exact .completes ⟨rfl, rfl, rfl, fun _ => rfl, .inr ⟨a, b, rfl, hin, rfl⟩, .inl rfl, fun _ _ => rfl⟩
  | call a =>
    obtain ⟨hfull, rfl⟩ | ⟨hroom, rfl⟩ := exec_call_next.1 h
    · exact .fails (.call hfull)
    · exact .completes ⟨rfl, rfl, rfl, fun hn => absurd (by simp [Instr.opcode]) hn, .inl rfl,
        .inr (.inl ⟨⟨a, .inr rfl⟩, hroom, _, rfl⟩), fun _ _ => rfl⟩
  | ret =>
    obtain ⟨hempty, rfl⟩ | ⟨v, rest, htop, rfl⟩ := exec_ret_next.1 h
    · exact .halts (.inr ⟨rfl, hempty⟩)
    · exact .completes ⟨rfl, rfl, rfl, fun hn => absurd (by simp [Instr.opcode]) hn, .inl rfl,
        .inr (.inr ⟨.inr rfl, v, htop⟩), fun _ _ => rfl⟩
  | out a =>
    obtain ⟨hword, rfl⟩ | ⟨hbyte, herr, rfl⟩ | ⟨hbyte, hbusy, rfl⟩ | ⟨-, -, rfl⟩ := exec_out_next.1 h
    · exact .fails (.outWord hword)
    · exact .fails (.outPort hbyte herr)
    · exact .waits (.notReady hbyte hbusy)
    · exact .completes ⟨rfl, rfl, rfl, fun _ => rfl, .inl rfl, .inl rfl, fun hn _ => absurd rfl (hn a)⟩
  | inp d =>
    obtain ⟨herr, rfl⟩ | ⟨hnone, rfl⟩ | ⟨hcr, rfl⟩ | ⟨x, -, -, rfl⟩ := exec_inp_next.1 h
    · exact .fails (.inPort herr)
    · exact .waits (.noByte hnone)
    · exact .waits (.carriageReturn hcr)
    · exact .completes ⟨rfl, rfl, rfl, fun _ => rfl, .inl rfl, .inl rfl, fun _ hn => absurd rfl (hn d)⟩
  | noop =>
    obtain rfl := exec_noop_next.1 h
    exact .completes ⟨rfl, rfl, rfl, fun _ => rfl, .inl rfl, .inl rfl, fun _ _ => rfl⟩

/-- A cause of failure is enough for it. -/
theorem Fails.exec_next (h : Fails s i f e) : exec i s = .next ((s.setEnv e).failed f) := by
  cases h with
  | pop h => exact exec_pop_next.2 (.inl ⟨h, rfl⟩)
  | rmem h => exact exec_rmem_next.2 (.inl ⟨h, rfl⟩)
  | wmem h => exact exec_wmem_next.2 (.inl ⟨h, rfl⟩)
  | outWord h => exact exec_out_next.2 (.inl ⟨h, rfl⟩)
  | outPort h herr => exact exec_out_next.2 (.inr (.inl ⟨h, herr, rfl⟩))
  | inPort h => exact exec_inp_next.2 (.inl ⟨h, rfl⟩)
  | mod h => exact exec_mod_next.2 (.inl ⟨h, rfl⟩)
  | push h => exact exec_push_next.2 (.inl ⟨h, rfl⟩)
  | call h => exact exec_call_next.2 (.inl ⟨h, rfl⟩)

/-- A cause of waiting is enough for it. -/
theorem Waits.exec_next (h : Waits s i e) : exec i s = .next ((s.setEnv e).setResult .stall) := by
  cases h with
  | noByte h => exact exec_inp_next.2 (.inr (.inl ⟨h, rfl⟩))
  | carriageReturn h => exact exec_inp_next.2 (.inr (.inr (.inl ⟨h, rfl⟩)))
  | notReady h hbusy => exact exec_out_next.2 (.inr (.inr (.inl ⟨h, hbusy, rfl⟩)))

/-! ## What a failure leaves -/

/-- R96: a failing instruction moves no byte. -/
theorem Fails.traffic (h : Fails s i f e) : e.inTaken = s.env.inTaken ∧ e.outGiven = s.env.outGiven := by
  cases h <;> exact ⟨rfl, rfl⟩

/-- R22, R23: a failure with no byte moved writes its report and nothing else of the core. -/
theorem failsWith_failed (f : Failure) (s : State) {e : Env} (hin : e.inTaken = s.env.inTaken)
    (hout : e.outGiven = s.env.outGiven) : FailsWith f.code f.info s ((s.setEnv e).failed f) :=
  ⟨⟨rfl, rfl, rfl, rfl, rfl, rfl⟩, ⟨hin, hout⟩, rfl, rfl⟩

theorem Fails.failsWith (h : Fails s i f e) : ∃ t, exec i s = .next t ∧ FailsWith f.code f.info s t :=
  ⟨_, h.exec_next, failsWith_failed f s h.traffic.1 h.traffic.2⟩

/-- An instruction that returns Fault has failed, for a cause of its own. -/
theorem fails_of_result {c : BitVec 4} {w : Word} (h : exec i s = .next t) (hr : t.result = some (.fault c w)) :
    ∃ f e, Fails s i f e ∧ c = f.code ∧ w = f.info ∧ t = (s.setEnv e).failed f := by
  cases ends_of_exec h with
  | fails hf => cases hr; exact ⟨_, _, hf, rfl, rfl, rfl⟩
  | waits => cases hr
  | completes => cases hr
  | halts => cases hr

/-- R94: the codes run from 1 to 10. -/
theorem Failure.code_range (f : Failure) : f.code ≠ 0 ∧ f.code.toNat ≤ 10 := by
  cases f with
  | decode e => cases e <;> simp [Failure.code]
  | _ => simp [Failure.code]

/-! ## What reaches the ports -/

/-- R88, R89: all an instruction can do to the ports' environment. -/
inductive PortUse (i : Instr) (s : State) : Env → Prop
  | untouched : (∀ a, i ≠ .out a) → (∀ d, i ≠ .inp d) → PortUse i s s.env
  | refused {a : Src} : i = .out a → 255 < (s.val a).toNat → PortUse i s s.env
  | offered {a : Src} : i = .out a → (s.val a).toNat ≤ 255 → s.env.outNow ≠ .ready → PortUse i s s.env.outStep
  | given {a : Src} : i = .out a → (s.val a).toNat ≤ 255 → s.env.outNow = .ready →
    PortUse i s (s.env.give (lowByte (s.val a)))
  | sampled {d : RegIdx} : i = .inp d → (∀ b, s.env.inNow ≠ .byte b) → PortUse i s s.env.inStep
  | taken {d : RegIdx} {b : Byte} : i = .inp d → s.env.inNow = .byte b → PortUse i s (s.env.take b)

theorem Ends.env_of_no_port (h : Ends i s t) (hout : ∀ a, i ≠ .out a) (hin : ∀ d, i ≠ .inp d) : t.env = s.env := by
  cases h with
  | fails hf =>
    cases hf with
    | outPort => exact absurd rfl (hout _)
    | inPort => exact absurd rfl (hin _)
    | _ => rfl
  | waits hw =>
    cases hw with
    | notReady => exact absurd rfl (hout _)
    | _ => exact absurd rfl (hin _)
  | completes hc => exact hc.env hout hin
  | halts => rfl

theorem exec_ports (h : exec i s = .next t) : PortUse i s t.env := by
  cases i with
  | out a =>
    obtain ⟨hword, rfl⟩ | ⟨hbyte, herr, rfl⟩ | ⟨hbyte, hbusy, rfl⟩ | ⟨hbyte, hready, rfl⟩ := exec_out_next.1 h
    · exact .refused rfl hword
    · exact .offered rfl hbyte (by simp [herr])
    · exact .offered rfl hbyte (by simp [hbusy])
    · exact .given rfl hbyte hready
  | inp d =>
    obtain ⟨herr, rfl⟩ | ⟨hnone, rfl⟩ | ⟨hcr, rfl⟩ | ⟨x, -, hx, rfl⟩ := exec_inp_next.1 h
    · exact .sampled rfl (by simp [herr])
    · exact .sampled rfl (by simp [hnone])
    · exact .taken rfl hcr
    · exact .taken rfl hx
  | _ =>
    rw [(ends_of_exec h).env_of_no_port (by simp) (by simp)]
    exact .untouched (by simp) (by simp)

/-! ## The invariant through each end -/

/-- R17, R94: a fresh failure's report is consistent. -/
theorem failed_report_consistent (f : Failure) (s : State) : (s.failed f).report.Consistent :=
  ⟨f.code_range.2, nofun, fun _ => f.code_range.1⟩

/-- R17: clearing `fault_valid` keeps the report consistent. -/
theorem FaultReport.Consistent.clear {r : FaultReport} (h : r.Consistent) :
    FaultReport.Consistent { r with valid := false } :=
  ⟨h.codeRange, fun hseen => by rw [h.unseen hseen]; rfl, h.seen⟩

/-- R19: a completing instruction keeps the canonical form, since wmem alone stores and its address is in the store. -/
theorem Completes.wf_mem (h : Completes i s s1) (hm : Memory.wf s.mem = true) : Memory.wf s1.mem = true := by
  obtain hmem | ⟨a, b, -, hin, hmem⟩ := h.mem
  · rwa [hmem]
  · rw [hmem]; exact Memory.wf_writeWord hm hin

/-- A stack under its capacity that is not at it has room for one more word. -/
theorem State.StackWithinCap.room (h : s.StackWithinCap) (hroom : s.stackCap ≠ some s.stack.length) {cap : Nat}
    (hcap : s.stackCap = some cap) : s.stack.length + 1 ≤ cap :=
  Nat.lt_of_le_of_ne (h cap hcap) fun heq => hroom (heq ▸ hcap)

/-- R16, R100: a completing instruction keeps the stack to its capacity. -/
theorem Completes.stackWithinCap (h : Completes i s s1) (hs : s.StackWithinCap) : s1.StackWithinCap := by
  intro cap hcap
  rw [h.stackCap] at hcap
  obtain hst | ⟨-, hroom, v, hst⟩ | ⟨-, v, hst⟩ := h.stack
  · rw [hst]; exact hs cap hcap
  · rw [hst]; exact hs.room hroom hcap
  · have hle := hs cap hcap
    rw [hst, List.length_cons] at hle
    exact Nat.le_of_succ_le hle

theorem Ends.inv (h : Ends i s t) (hs : s.Inv) : t.Inv := by
  cases h with
  | fails => exact ⟨hs.mem, hs.stack, failed_report_consistent ..⟩
  | waits => exact ⟨hs.mem, hs.stack, hs.report⟩
  | completes hc =>
    refine ⟨hc.wf_mem hs.mem, hc.stackWithinCap hs.stack, ?_⟩
    rw [State.committed_report, hc.report]
    exact hs.report.clear
  | halts => exact ⟨hs.mem, hs.stack, hs.report.clear⟩

theorem step_inv (hs : s.Inv) (h : step s = .next t) : t.Inv := by
  obtain ⟨-, rfl⟩ | ⟨-, e, -, rfl⟩ | ⟨-, i, -, -, hexec⟩ := step_next.1 h
  · exact ⟨hs.mem, hs.stack, hs.report⟩
  · exact ⟨hs.mem, hs.stack, failed_report_consistent ..⟩
  · exact (ends_of_exec hexec).inv hs

end Sys2Proof.Machine

open Sys2Proof Sys2Proof.Machine

/-- Settles O49: each end of an instruction keeps the three parts of the invariant. -/
theorem stepKeepsTheInvariant : Obligations.StepKeepsTheInvariant := fun _ _ => step_inv

/-- Settles O43: `Fails` is the case list. -/
theorem executionFailuresHaveTheirOwnCauses : Obligations.ExecutionFailuresHaveTheirOwnCauses := by
  intro i s t c w hexec hr
  obtain ⟨f, e, hf, rfl, rfl, -⟩ := fails_of_result hexec hr
  cases hf with
  | pop h => exact .inl ⟨rfl, rfl, h, _, rfl⟩
  | rmem h => exact .inr (.inl ⟨rfl, h, .inl ⟨_, _, rfl, rfl⟩⟩)
  | wmem h => exact .inr (.inl ⟨rfl, h, .inr ⟨_, _, rfl, rfl⟩⟩)
  | outWord h => exact .inr (.inr (.inl ⟨rfl, h, _, rfl, rfl⟩))
  | outPort _ h => exact .inr (.inr (.inr (.inl ⟨rfl, rfl, .inl ⟨_, rfl, h⟩⟩)))
  | inPort h => exact .inr (.inr (.inr (.inl ⟨rfl, rfl, .inr ⟨_, rfl, h⟩⟩)))
  | mod h => exact .inr (.inr (.inr (.inr (.inl ⟨rfl, rfl, _, _, _, rfl, h⟩))))
  | push h => exact .inr (.inr (.inr (.inr (.inr ⟨rfl, rfl, h, _, .inl rfl⟩))))
  | call h => exact .inr (.inr (.inr (.inr (.inr ⟨rfl, rfl, h, _, .inr rfl⟩))))

/-- Settles O44: the full stack is the cause, and O43 that code 10 has no other. -/
theorem fullFiniteStackOverflows : Obligations.FullFiniteStackOverflows := by
  refine fun s a => ⟨fun hfull => ⟨(Fails.push hfull).failsWith, (Fails.call hfull).failsWith⟩, fun hnone i t h w hr => ?_⟩
  have hcause := executionFailuresHaveTheirOwnCauses i s t 10 w h hr
  simp [hnone] at hcause

/-- Settles O38: of the four ends only completing reaches the memory, and there only wmem, with one word. -/
theorem onlyWmemStoresAndOnlyOneWord : Obligations.OnlyWmemStoresAndOnlyOneWord := by
  intro i s t hwf h
  have hmem : t.mem = s.mem ∨ ∃ a b, i = .wmem a b ∧ (s.val a).toNat < Config.memWords ∧
      t.mem = writeWord s.mem (s.val a).toNat (s.val b) := by
    cases ends_of_exec h with
    | completes hc => exact hc.mem
    | _ => exact .inl rfl
  obtain hsame | ⟨a, b, rfl, hin, hwrite⟩ := hmem
  · simp [hsame]
  · refine ⟨fun a' b' heq _ c hlo hhi => ?_, fun a' b' heq hout => ?_, fun hn => absurd rfl (hn a b)⟩
    · cases heq
      rw [hwrite, Memory.readCell_writeWord hwf hin]
      exact (if_neg hhi).trans (if_neg hlo)
    · cases heq
      exact absurd hin (Nat.not_lt.2 hout)

/-- Settles O39: of the four ends completing reaches the stack, and halting the status. -/
theorem stackAndStatusFrame : Obligations.StackAndStatusFrame := by
  intro i s t h
  cases ends_of_exec h with
  | fails => exact ⟨fun _ _ _ _ => rfl, fun _ _ => rfl, rfl⟩
  | waits => exact ⟨fun _ _ _ _ => rfl, fun _ _ => rfl, rfl⟩
  | completes hc =>
    refine ⟨fun hpush hpop hcall hret => ?_, fun _ _ => hc.status, hc.stackCap⟩
    obtain hst | ⟨⟨a, rfl | rfl⟩, -⟩ | ⟨⟨d, rfl⟩ | rfl, -⟩ := hc.stack
    · exact hst
    · exact absurd rfl (hpush a)
    · exact absurd rfl (hcall a)
    · exact absurd rfl (hpop d)
    · exact absurd rfl hret
  | halts hi =>
    refine ⟨fun _ _ _ _ => rfl, fun hhalt hret => ?_, rfl⟩
    obtain rfl | ⟨rfl, hempty⟩ := hi
    · exact absurd rfl hhalt
    · exact absurd hempty (hret rfl)

/-- Settles O40: completing and halting commit, and committing clears `fault_valid` alone. -/
theorem completingInstructionOnlyClearsFaultValid : Obligations.CompletingInstructionOnlyClearsFaultValid := by
  intro i s t h hr
  cases ends_of_exec h with
  | fails => simp at hr
  | waits => simp at hr
  | completes hc => simp [hc.report]
  | halts => simp

/-- Settles O41: read off `exec_ports`. -/
theorem onlyInAndOutReachThePorts : Obligations.OnlyInAndOutReachThePorts := by
  intro i s t h
  have hports := exec_ports h
  generalize t.env = e at hports ⊢
  cases hports with
  | untouched hout hin => exact ⟨fun _ _ => rfl, fun a ha => absurd ha (hout a), fun d hd => absurd hd (hin d)⟩
  | refused ha => simp [ha]
  | offered ha => simp [ha]
  | given ha => simp [ha]
  | sampled hd => simp [hd]
  | taken hd => simp [hd]

/-- Settles O42: of the four ends only completing moves pc. -/
theorem completingNonTransferAdvancesByItsLength : Obligations.CompletingNonTransferAdvancesByItsLength := by
  intro i s t h
  cases ends_of_exec h with
  | completes hc => exact ⟨fun _ hi => (hc.pc hi).trans (s.nextAddr_eq i), fun hr => absurd rfl hr⟩
  | _ => exact ⟨nofun, fun _ => rfl⟩

end

section
/-! PROOFS, 10_state.md section 9: the step (R22), what it fetches, and `run()` (R25). -/

namespace Sys2Proof.Machine

variable {i : Instr} {s t : State} {f : Failure} {e : Env}

/-! ## The instruction at pc -/

/-- R56: an instruction that decodes at pc lies in the store. -/
theorem pc_add_length_le {n : Word} (h : decodeAt s = .ok (i, n)) : s.pc.toNat + i.length ≤ Config.memWords := by
  obtain ⟨-, ⟨rest, hws⟩, -⟩ := decode_eq_ok h
  have hlen := congrArg List.length hws
  rw [Config.maxLen, fetchWords_four, List.length_take, List.length_append, encode_length] at hlen
  have hone := i.one_le_length
  omega

/-- R56: the decoder's next address, which does not wrap. -/
theorem decodeAt_next {n : Word} (h : decodeAt s = .ok (i, n)) :
    n = s.nextAddr i ∧ n.toNat = s.pc.toNat + i.length := by
  obtain ⟨-, -, rfl⟩ := decode_eq_ok h
  exact ⟨rfl, Nat.mod_eq_of_lt (Nat.lt_of_le_of_lt (pc_add_length_le h) (by decide))⟩

/-- R35: the first `k` words fetched are those a list has, where the store has them at their addresses. -/
theorem take_fetchWords {m : Memory} {p k : Nat} {ws : List Word} (hk : k ≤ Config.maxLen) (hfit : p + k ≤ Config.memWords)
    (hw : ∀ j, j < k → ws[j]? = some (readWord m (p + j))) : (fetchWords m Config.maxLen p).take k = ws.take k := by
  apply List.ext_getElem?
  intro j
  rw [List.getElem?_take, List.getElem?_take, Memory.fetchWords_getElem?]
  by_cases hj : j < k
  · rw [if_pos hj, if_pos hj, hw j hj, if_pos ⟨Nat.lt_of_lt_of_le hj hk, by omega⟩]
  · rw [if_neg hj, if_neg hj]

/-- R55: at the words of an encoding, all in the store, the fetch gives it with what follows. -/
theorem fetchWords_encode {m : Memory} {p : Nat} (hfit : p + i.length ≤ Config.memWords)
    (hw : ∀ k, k < i.length → (encode i)[k]? = some (readWord m (p + k))) :
    ∃ rest, fetchWords m Config.maxLen p = encode i ++ rest := by
  have htake := take_fetchWords i.length_le_four hfit hw
  rw [List.take_of_length_le (Nat.le_of_eq (encode_length i))] at htake
  exact ⟨_, by rw [← htake, List.take_append_drop]⟩

/-- R55: at the end of the store the fetch gives the words of the encoding that are still in it. -/
theorem fetchWords_cut_off {m : Memory} {p k : Nat} (hk : k < i.length) (hend : p + k = Config.memWords)
    (hw : ∀ j, j < k → (encode i)[j]? = some (readWord m (p + j))) :
    fetchWords m Config.maxLen p = (encode i).take k := by
  have hlen : (fetchWords m Config.maxLen p).length ≤ k := by
    rw [← List.getElem?_eq_none_iff, Memory.fetchWords_getElem?, if_neg (by omega)]
  rw [← take_fetchWords ((Nat.le_of_lt hk).trans i.length_le_four) (Nat.le_of_eq hend) hw, List.take_of_length_le hlen]

/-! ## The step, by what stands at pc -/

theorem step_of_decodeAt_ok {n : Word} (hrun : s.status = .running) (h : decodeAt s = .ok (i, n)) : step s = exec i s := by
  rw [step, hrun, h]

theorem step_of_halted (h : s.status = .halted) : step s = .next (s.setResult .halt) := step_next.2 (.inl ⟨h, rfl⟩)

theorem failed_failsWith (f : Failure) (s : State) : FailsWith f.code f.info s (s.failed f) := failsWith_failed f s rfl rfl

/-- R22: a Running step at words that do not decode fails with the decode's failure. -/
theorem step_decode_failsWith {e : DecodeFailure} (hrun : s.status = .running) (h : decodeAt s = .error e) :
    ∃ t, step s = .next t ∧ FailsWith (Failure.decode e).code (Failure.decode e).info s t :=
  ⟨_, step_of_decodeAt_error hrun h, failed_failsWith (.decode e) s⟩

/-- No arm of exec is refused, and none stops the machine (log 2). -/
theorem exec_total (i : Instr) (s : State) : ∃ t, exec i s = .next t := by
  cases i with
  | push =>
    by_cases h : s.stackCap = some s.stack.length
    · exact ⟨_, exec_push_next.2 (.inl ⟨h, rfl⟩)⟩
    · exact ⟨_, exec_push_next.2 (.inr ⟨h, rfl⟩)⟩
  | pop =>
    cases h : s.stack with
    | nil => exact ⟨_, exec_pop_next.2 (.inl ⟨h, rfl⟩)⟩
    | cons v rest => exact ⟨_, exec_pop_next.2 (.inr ⟨v, rest, h, rfl⟩)⟩
  | jt => exact ⟨_, exec_jt_next.2 rfl⟩
  | jf => exact ⟨_, exec_jf_next.2 rfl⟩
  | mod _ _ c =>
    by_cases h : s.val c = 0
    · exact ⟨_, exec_mod_next.2 (.inl ⟨h, rfl⟩)⟩
    · exact ⟨_, exec_mod_next.2 (.inr ⟨h, rfl⟩)⟩
  | rmem d b =>
    obtain h | h := Nat.lt_or_ge (s.val b).toNat Config.memWords
    · exact ⟨_, exec_rmem_in_store h d⟩
    · exact ⟨_, exec_rmem_past h d⟩
  | wmem a b =>
    obtain h | h := Nat.lt_or_ge (s.val a).toNat Config.memWords
    · exact ⟨_, exec_wmem_in_store h b⟩
    · exact ⟨_, exec_wmem_past h b⟩
  | call =>
    by_cases h : s.stackCap = some s.stack.length
    · exact ⟨_, exec_call_next.2 (.inl ⟨h, rfl⟩)⟩
    · exact ⟨_, exec_call_next.2 (.inr ⟨h, rfl⟩)⟩
  | ret =>
    cases h : s.stack with
    | nil => exact ⟨_, exec_ret_next.2 (.inl ⟨h, rfl⟩)⟩
    | cons v rest => exact ⟨_, exec_ret_next.2 (.inr ⟨v, rest, h, rfl⟩)⟩
  | out a =>
    obtain h | h := Nat.lt_or_ge 255 (s.val a).toNat
    · exact ⟨_, (Fails.outWord h).exec_next⟩
    · cases hport : s.env.outNow with
      | ready => exact ⟨_, exec_out_next.2 (.inr (.inr (.inr ⟨h, hport, rfl⟩)))⟩
      | notReady => exact ⟨_, (Waits.notReady h hport).exec_next⟩
      | error => exact ⟨_, (Fails.outPort h hport).exec_next⟩
  | inp =>
    cases hport : s.env.inNow with
    | none => exact ⟨_, (Waits.noByte hport).exec_next⟩
    | error => exact ⟨_, (Fails.inPort hport).exec_next⟩
    | byte x =>
      by_cases hx : x = 13
      · exact ⟨_, (Waits.carriageReturn (hx ▸ hport)).exec_next⟩
      · exact ⟨_, exec_inp_next.2 (.inr (.inr (.inr ⟨x, hx, hport, rfl⟩)))⟩
  | _ => exact ⟨_, rfl⟩

theorem step_total (s : State) : ∃ t, step s = .next t := by
  cases hst : s.status with
  | halted => exact ⟨_, step_of_halted hst⟩
  | running =>
    cases hdec : decodeAt s with
    | error e => exact ⟨_, step_of_decodeAt_error hst hdec⟩
    | ok r => rw [step_of_decodeAt_ok (i := r.1) (n := r.2) hst hdec]; exact exec_total r.1 s

/-- All a Running step can do: fail to decode, or end an instruction. -/
theorem running_step_cases (hrun : s.status = .running) (h : step s = .next t) :
    (∃ e, t = s.failed (.decode e)) ∨ ∃ i, Ends i s t := by
  obtain ⟨hst, -⟩ | ⟨-, e, -, hfail⟩ | ⟨-, i, n, -, hexec⟩ := step_next.1 h
  · rw [hrun] at hst; cases hst
  · exact .inl ⟨e, hfail⟩
  · exact .inr ⟨i, ends_of_exec hexec⟩

/-- R21: a step returns one of the four outcomes. -/
theorem step_result_isSome (h : step s = .next t) : t.result ≠ none := by
  obtain ⟨-, rfl⟩ | ⟨-, e, -, rfl⟩ | ⟨-, i, -, -, hexec⟩ := step_next.1 h
  · nofun
  · nofun
  · cases ends_of_exec hexec <;> nofun

/-! ## The same failure again -/

/-- R99: but for the port's errors, a cause of failure lies in the core's state alone. -/
theorem Fails.of_sameCore (h : Fails s i f e) (hio : f ≠ .ioError) (hst : SameCore s t) : Fails t i f t.env := by
  have hval : ∀ o, t.val o = s.val o := State.val_congr hst.regs
  cases h with
  | pop h => exact .pop (hst.stack.trans h)
  | rmem h => exact hval _ ▸ .rmem (by rwa [hval])
  | wmem h => exact hval _ ▸ .wmem (by rwa [hval])
  | outWord h => exact hval _ ▸ .outWord (by rwa [hval])
  | outPort => exact absurd rfl hio
  | inPort => exact absurd rfl hio
  | mod h => exact .mod ((hval _).trans h)
  | push h => exact .push (by rw [hst.stackCap, hst.stack, h])
  | call h => exact .call (by rw [hst.stackCap, hst.stack, h])

/-- R21, R22, R23: a step that returns Fault has failed, and but for the port's errors it fails so from every state with the same core. -/
theorem step_fault_cases {c : BitVec 4} {w : Word} (h : step s = .next t) (hr : t.result = some (.fault c w)) :
    ∃ f e, c = f.code ∧ w = f.info ∧ t = (s.setEnv e).failed f ∧ e.inTaken = s.env.inTaken ∧ e.outGiven = s.env.outGiven ∧
      (f ≠ .ioError → ∀ u, SameCore s u → step u = .next (u.failed f)) := by
  obtain ⟨-, rfl⟩ | ⟨hrun, e, hdec, rfl⟩ | ⟨hrun, i, n, hdec, hexec⟩ := step_next.1 h
  · cases hr
  · cases hr
    exact ⟨.decode e, s.env, rfl, rfl, rfl, rfl, rfl, fun _ u hu =>
      step_of_decodeAt_error (hu.status.trans hrun) ((decodeAt_congr hu.pc hu.mem).trans hdec)⟩
  · obtain ⟨f, e, hf, rfl, rfl, rfl⟩ := fails_of_result hexec hr
    refine ⟨f, e, rfl, rfl, rfl, hf.traffic.1, hf.traffic.2, fun hio u hu => ?_⟩
    rw [step_of_decodeAt_ok (hu.status.trans hrun) ((decodeAt_congr hu.pc hu.mem).trans hdec)]
    exact (hf.of_sameCore hio hu).exec_next

/-! ## Waiting -/

/-- R91, R92: an instruction that returns Stall waits. -/
theorem Ends.waits_of_result (h : Ends i s t) (hr : t.result = some .stall) :
    ∃ e, Waits s i e ∧ t = (s.setEnv e).setResult .stall := by
  cases h with
  | waits hw => exact ⟨_, hw, rfl⟩
  | fails => cases hr
  | completes => cases hr
  | halts => cases hr

theorem step_waits_of_result (h : step s = .next t) (hr : t.result = some .stall) :
    ∃ i e, s.executing = some i ∧ Waits s i e ∧ t = (s.setEnv e).setResult .stall := by
  obtain ⟨-, rfl⟩ | ⟨-, e, -, rfl⟩ | ⟨hrun, i, n, hdec, hexec⟩ := step_next.1 h
  · cases hr
  · cases hr
  · obtain ⟨e, hw, ht⟩ := (ends_of_exec hexec).waits_of_result hr
    exact ⟨i, e, State.executing_eq_some.2 ⟨hrun, n, hdec⟩, hw, ht⟩

theorem step_of_executing (h : s.executing = some i) : step s = exec i s := by
  obtain ⟨hrun, n, hdec⟩ := State.executing_eq_some.1 h
  exact step_of_decodeAt_ok hrun hdec

theorem Waits.step_result (hw : Waits s i e) (hi : s.executing = some i) (h : step s = .next t) : t.result = some .stall := by
  rw [step_of_executing hi, hw.exec_next] at h
  cases h
  rfl

/-! ## `run()` -/

theorem run_succ (M : Host.Core) {k : Nat} {s s1 : M.State} (h : M.step s = .next s1) : M.run (k + 1) s = M.run k s1 := by
  rw [Host.Core.run, h]

theorem core_run_succ {k : Nat} {s1 : State} (h : step s = .next s1) :
    Host.Core.run core (k + 1) s = Host.Core.run core k s1 := run_succ core h

/-- R25: Halt and Fault end a run, and a step that does not end it has returned Done or Stall. -/
theorem endsRun_iff (r : Option StepResult) : endsRun r = true ↔ r = some .halt ∨ ∃ c w, r = some (.fault c w) := by
  rcases r with _ | _ | _ | _ | ⟨c, w⟩ <;> simp [endsRun]

theorem done_or_stall_of_not_endsRun {r : Option StepResult} (hr : r ≠ none) (h : endsRun r = false) :
    r = some .done ∨ r = some .stall := by
  rcases r with _ | _ | _ | _ | ⟨c, w⟩ <;> simp_all [endsRun]

theorem runFor_succ {n : Nat} {s1 : State} (h : step s = .next s1) :
    runFor (n + 1) s = if endsRun s1.result then .next s1 else runFor n s1 := by
  rw [runFor, h]

end Sys2Proof.Machine

open Sys2Proof Sys2Proof.Machine

/-- Settles O8: past the store the fetch is empty, and at its end it is a cut-off encoding. -/
theorem fetchPastTheStoreFails : Obligations.FetchPastTheStoreFails := by
  refine ⟨fun s hrun hpc => step_decode_failsWith hrun (decodeAt_past hpc), fun s i k hrun hwf h1 hk hend hw => ?_⟩
  have hdec : decodeAt s = .error (.invalidIp 32768) := by
    rw [decodeAt, fetchWords_cut_off hk hend hw, decode_cut_off hwf s.pc h1 hk, hend]
    rfl
  exact step_decode_failsWith hrun hdec

/-- Settles O10: the step runs what decodes, and the words of an encoding decode. -/
theorem stepRunsTheDecodedInstruction : Obligations.StepRunsTheDecodedInstruction := by
  refine ⟨fun s i n hrun hdec => ⟨step_of_decodeAt_ok hrun hdec, decodeAt_next hdec⟩, fun s i hrun hwf hfit hw => ?_⟩
  obtain ⟨rest, hws⟩ := fetchWords_encode hfit hw
  refine step_of_decodeAt_ok hrun (n := s.nextAddr i) ?_
  rw [decodeAt, hws]
  exact decode_encode hwf s.pc rest

/-- Settles O11: the four decode failures by their codes. -/
theorem undecodableWordsFailByName : Obligations.UndecodableWordsFailByName := by
  intro s e hrun hdec
  obtain ⟨t, hstep, hfail⟩ := step_decode_failsWith hrun hdec
  refine ⟨t, hstep, ?_, ?_, ?_, ?_⟩ <;> (rintro w rfl; exact hfail)

/-- Settles O12: a Halted step records its outcome and nothing else. -/
theorem haltedStepChangesNothing : Obligations.HaltedStepChangesNothing := fun _ h =>
  ⟨_, step_of_halted h, ⟨rfl, rfl, rfl, rfl, rfl, rfl⟩, rfl, rfl, rfl⟩

/-- Settles O13: `step_total`, over `exec_total` for every instruction. -/
theorem everyStepAnswersANextState : Obligations.EveryStepAnswersANextState := step_total

/-- Settles O14: `step_fault_cases`. -/
theorem failingStepChangesOnlyTheReport : Obligations.FailingStepChangesOnlyTheReport := by
  intro s t c w h hr
  obtain ⟨f, e, rfl, rfl, rfl, hin, hout, -⟩ := step_fault_cases h hr
  exact failsWith_failed f s hin hout

/-- Settles O15: a failing step keeps the core, and the core decides the failure. -/
theorem unchangedStateFailsAgain : Obligations.UnchangedStateFailsAgain := by
  intro s t c w h hr hc
  obtain ⟨f, e, rfl, rfl, rfl, hin, hout, hagain⟩ := step_fault_cases h hr
  have hio : f ≠ .ioError := fun hf => hc (hf ▸ rfl)
  exact ⟨_, hagain hio _ (failsWith_failed f s hin hout).core, rfl, rfl, (failed_failsWith f _).core⟩

/-- Settles O16: the report of each of the four ends. -/
theorem faultReportFollowsTheOutcome : Obligations.FaultReportFollowsTheOutcome := by
  intro s t hrun h
  obtain ⟨e, rfl⟩ | ⟨i, hends⟩ := running_step_cases hrun h
  · simp [hrun]
  · cases hends with
    | completes hc => simp [hc.report, hc.status, hrun]
    | _ => simp [hrun]

/-- Settles O17: `Waits` is the list of the reasons to stall. -/
theorem onlyWaitingInAndOutStall : Obligations.OnlyWaitingInAndOutStall := by
  refine fun s t h => ⟨⟨fun hr => ?_, ?_⟩, fun hr => ?_⟩
  · obtain ⟨i, e, hi, hw, -⟩ := step_waits_of_result h hr
    cases hw with
    | noByte hport => exact .inl ⟨_, hi, .inl hport⟩
    | carriageReturn hport => exact .inl ⟨_, hi, .inr hport⟩
    | notReady hbyte hport => exact .inr ⟨_, hi, hbyte, hport⟩
  · rintro (⟨d, hi, hport | hport⟩ | ⟨a, hi, hbyte, hport⟩)
    · exact (Waits.noByte hport).step_result hi h
    · exact (Waits.carriageReturn hport).step_result hi h
    · exact (Waits.notReady hbyte hport).step_result hi h
  · obtain ⟨i, e, -, -, rfl⟩ := step_waits_of_result h hr
    exact ⟨⟨⟨rfl, rfl, rfl, rfl, rfl, rfl⟩, rfl, rfl⟩, decodeAt_congr rfl rfl⟩

/-- Settles O18: by the kind of the clock edge. -/
theorem onlyResetLeavesHalted : Obligations.OnlyResetLeavesHalted := by
  intro c s t hst h
  obtain ⟨hrst, rfl⟩ | ⟨hrst, hrun, hstep⟩ | ⟨hrst, hrun, rfl⟩ := cycle_next.1 h
  · exact ⟨by simp [hrst], by simp [hrst], fun _ => rfl⟩
  · rw [step_of_halted hst] at hstep
    cases hstep
    exact ⟨fun _ => hst, fun _ _ => ⟨rfl, rfl, rfl, rfl, rfl, rfl⟩, by simp [hrst]⟩
  · exact ⟨fun _ => by simp [hostAccess, hst], by simp [hrun], by simp [hrst]⟩

/-- Settles O19, by induction on the bound: the first step ends the run, or the rest of the run follows it. -/
theorem runStopsAtHaltOrFault : Obligations.RunStopsAtHaltOrFault := by
  intro n
  induction n with
  | zero => exact fun s t h => ⟨0, Nat.le_refl 0, h, nofun, fun j u hj hlt => by omega⟩
  | succ n ih =>
    intro s t h
    obtain ⟨s1, hs1⟩ := step_total s
    rw [runFor_succ hs1] at h
    split at h
    · next hend =>
      cases h
      exact ⟨1, by omega, core_run_succ hs1, fun _ => (endsRun_iff _).1 hend, fun j u hj hlt => by omega⟩
    · next hgo =>
      obtain ⟨k, hk, hrun, hlast, hbefore⟩ := ih s1 t h
      refine ⟨k + 1, by omega, (core_run_succ hs1).trans hrun, fun hlt => hlast (by omega), fun j u hj hlt hu => ?_⟩
      obtain ⟨j, rfl⟩ := Nat.exists_eq_add_of_le' hj
      rw [core_run_succ hs1] at hu
      cases j with
      | zero =>
        cases hu
        exact done_or_stall_of_not_endsRun (step_result_isSome hs1) (Bool.eq_false_iff.2 hgo)
      | succ j => exact hbefore (j + 1) u (Nat.succ_pos j) (by omega) hu

end

section
/-! PROOFS, 40_machine_control.md to 46_io.md: where each instruction completes, and with what. -/

namespace Sys2Proof.Machine

variable {s : State} {i : Instr} {e : Env}

/-- The register a completing instruction has written. -/
theorem reg_written (s : State) (d : RegIdx) (v p : Word) (r : StepResult) :
    (((s.setReg d v).setPc p).committed r).reg d = v := State.reg_setReg_same s d v

theorem word_eq_zero_iff (v : Word) : v = 0 ↔ v.toNat = 0 := BitVec.toNat_inj.symm

/-! ## The result words -/

theorem boolWord_toNat (b : Bool) : (boolWord b).toNat = if b then 1 else 0 := by cases b <;> rfl

/-- R69 over the numbers. -/
theorem boolWord_eq_toNat (b c : Word) : (boolWord (b == c)).toNat = if b.toNat = c.toNat then 1 else 0 := by
  simp [boolWord_toNat, BitVec.toNat_inj]

/-- R70 over the numbers. -/
theorem boolWord_isGreater_toNat (b c : Word) :
    (boolWord (isGreater b c)).toNat = if b.toNat > c.toNat then 1 else 0 := by
  simp [boolWord_toNat, isGreater, BitVec.ult]

/-- R79: the pseudocode's sum. -/
theorem aluAdd_toNat_and (b c : Word) : (aluAdd b c).toNat = (b.toNat + c.toNat) % 65536 &&& 0x7FFF := by
  rw [aluAdd, maskTag, BitVec.toNat_and, BitVec.toNat_add]
  rfl

/-- R78: the sum modulo 2^15. -/
theorem aluAdd_toNat (b c : Word) : (aluAdd b c).toNat = (b.toNat + c.toNat) % 32768 := by
  rw [aluAdd, maskTag_toNat, BitVec.toNat_add]
  exact Nat.mod_mod_of_dvd _ (by decide)

/-- R80: the pseudocode's product. -/
theorem aluMult_toNat_and (b c : Word) : (aluMult b c).toNat = b.toNat * c.toNat % 65536 &&& 0x7FFF := by
  rw [aluMult, maskTag, BitVec.toNat_and, BitVec.toNat_mul]
  rfl

/-- R78: the product modulo 2^15. -/
theorem aluMult_toNat (b c : Word) : (aluMult b c).toNat = b.toNat * c.toNat % 32768 := by
  rw [aluMult, maskTag_toNat, BitVec.toNat_mul]
  exact Nat.mod_mod_of_dvd _ (by decide)

/-- R84: the complement of the low fifteen bits. -/
theorem aluNot_toNat (b : Word) : (aluNot b).toNat = 32767 - b.toNat % 32768 := by
  rw [aluNot, maskTag_toNat, BitVec.toNat_not]
  have hb := b.isLt
  omega

/-! ## Waiting -/

theorem Waits.stalls (h : Waits s i e) : ∃ t, exec i s = .next t ∧ Stalls s t ∧ t.env = e :=
  ⟨_, h.exec_next, ⟨⟨rfl, rfl, rfl, rfl, rfl, rfl⟩, rfl, rfl⟩, rfl⟩

end Sys2Proof.Machine

open Sys2Proof Sys2Proof.Machine

/-! ## 40_machine_control.md and 41_move_stack.md -/

/-- Settles O20: halt commits a Halted status and moves nothing else. -/
theorem haltStopsAtItsOwnAddress : Obligations.HaltStopsAtItsOwnAddress :=
  fun _ => ⟨_, exec_halt_next.2 rfl, rfl, rfl, rfl⟩

/-- Settles O22: set writes back the operand's value. -/
theorem setCopiesTheWholeWord : Obligations.SetCopiesTheWholeWord :=
  fun s a _ => ⟨_, exec_set_next.2 rfl, rfl, reg_written s a _ _ _, s.nextAddr_eq _⟩

/-- Settles O23: the branch of push with room. -/
theorem pushPutsTheValueOnTop : Obligations.PushPutsTheValueOnTop :=
  fun s _ hroom => ⟨_, exec_push_next.2 (.inr ⟨hroom, rfl⟩), rfl, rfl, s.nextAddr_eq _⟩

/-- Settles O24: the two branches of pop. -/
theorem popTakesTheTopOrUnderflows : Obligations.PopTakesTheTopOrUnderflows := by
  refine ⟨fun s a v rest htop => ?_, fun s a hempty => (Fails.pop hempty).failsWith⟩
  exact ⟨_, exec_pop_next.2 (.inr ⟨v, rest, htop, rfl⟩), rfl, reg_written _ a v _ _, rfl, s.nextAddr_eq _⟩

/-! ## 42_compare.md and 43_control.md -/

/-- Settles O25: the result words of the two comparisons. -/
theorem comparisonsWriteOneOrZero : Obligations.ComparisonsWriteOneOrZero := by
  refine fun s a b c => ⟨⟨_, exec_eq_next.2 rfl, rfl, s.nextAddr_eq _, ?_⟩, ⟨_, exec_gt_next.2 rfl, rfl, s.nextAddr_eq _, ?_⟩⟩
  · rw [reg_written, boolWord_eq_toNat]
  · rw [reg_written, boolWord_isGreater_toNat]

/-- Settles O26: each jump's pc, its condition read as a number. -/
theorem jumpsSetPcToTheWholeWord : Obligations.JumpsSetPcToTheWholeWord := by
  refine fun s a b => ⟨⟨_, exec_jmp_next.2 rfl, rfl, rfl⟩, ⟨_, exec_jt_next.2 rfl, rfl, ?_⟩, ⟨_, exec_jf_next.2 rfl, rfl, ?_⟩⟩
  · simp only [State.committed_pc, State.setPc_pc, State.nextAddr_eq, word_eq_zero_iff, ite_not, ne_eq]
    rfl
  · simp only [State.committed_pc, State.setPc_pc, State.nextAddr_eq, word_eq_zero_iff]
    rfl

/-- Settles O27: the branch of call with room. -/
theorem callPushesTheAddressAfterIt : Obligations.CallPushesTheAddressAfterIt :=
  fun s _ hroom => ⟨_, exec_call_next.2 (.inr ⟨hroom, rfl⟩), rfl, congrArg (· :: s.stack) (s.nextAddr_eq _), rfl⟩

/-- Settles O28: the two branches of ret. -/
theorem retPopsItsTargetOrHalts : Obligations.RetPopsItsTargetOrHalts := by
  refine ⟨fun s v rest htop => ?_, fun s hempty => ?_⟩
  · exact ⟨_, exec_ret_next.2 (.inr ⟨v, rest, htop, rfl⟩), rfl, rfl, rfl⟩
  · exact ⟨_, exec_ret_next.2 (.inl ⟨hempty, rfl⟩), rfl, rfl, rfl, hempty⟩

/-- Settles O47: the word call pushed is the one ret pops. -/
theorem retReturnsAfterTheCall : Obligations.RetReturnsAfterTheCall := by
  intro s t a h hr
  obtain ⟨-, rfl⟩ | ⟨-, rfl⟩ := exec_call_next.1 h
  · cases hr
  · exact ⟨_, exec_ret_next.2 (.inr ⟨_, _, rfl, rfl⟩), rfl, s.nextAddr_eq _, rfl, rfl, rfl⟩

/-! ## 44_arith_logic.md -/

/-- Settles O29: the sum of the pseudocode, and for the corner the sum modulo 2^15. -/
theorem addWrapsAndClearsBitFifteen : Obligations.AddWrapsAndClearsBitFifteen := by
  refine fun s a b c => ⟨rfl, _, exec_add_next.2 rfl, rfl, s.nextAddr_eq _, ?_, fun hb hc => ?_⟩
  · rw [reg_written, aluAdd_toNat_and]
  · rw [reg_written, aluAdd_toNat, hc]
    omega

/-- Settles O30: the number of each result word. -/
theorem aluLawsOnNumbers : Obligations.AluLawsOnNumbers := by
  refine fun s a b c => ⟨⟨_, exec_add_next.2 rfl, rfl, s.nextAddr_eq _, ?_⟩, ⟨_, exec_mult_next.2 rfl, rfl, s.nextAddr_eq _, ?_, ?_⟩,
    ⟨_, exec_and_next.2 rfl, rfl, s.nextAddr_eq _, ?_⟩, ⟨_, exec_or_next.2 rfl, rfl, s.nextAddr_eq _, ?_⟩,
    ⟨_, exec_not_next.2 rfl, rfl, s.nextAddr_eq _, ?_⟩⟩
  · rw [reg_written, aluAdd_toNat]
  · rw [reg_written, aluMult_toNat_and]
  · rw [reg_written, aluMult_toNat]
  · rw [reg_written, BitVec.toNat_and]
  · rw [reg_written, BitVec.toNat_or]
  · rw [reg_written, aluNot_toNat]

/-- Settles O31: the two branches of mod. -/
theorem modIsTheUnsignedRemainder : Obligations.ModIsTheUnsignedRemainder := by
  refine fun s a b c => ⟨fun hc => ?_, fun hc => (Fails.mod ((word_eq_zero_iff _).2 hc)).failsWith⟩
  refine ⟨_, exec_mod_next.2 (.inr ⟨fun h => hc ((word_eq_zero_iff _).1 h), rfl⟩), rfl, s.nextAddr_eq _, ?_⟩
  rw [reg_written, BitVec.toNat_umod]

/-! ## 45_memory_access.md and 46_io.md -/

/-- Settles O46: rmem in the state wmem leaves, by the law of a read after a write. -/
theorem rmemAfterWmemReadsTheWrite : Obligations.RmemAfterWmemReadsTheWrite := by
  intro s t a b e d hwf hin h
  rw [exec_wmem_in_store hin b] at h
  have hmem : t.mem = writeWord s.mem (s.val a).toNat (s.val b) := by cases h; rfl
  refine ⟨fun heq => ?_, fun hne hin' => ⟨_, exec_rmem_in_store hin' d, ?_⟩⟩
  · have hin' : (t.val e).toNat < Config.memWords := heq ▸ hin
    refine ⟨_, exec_rmem_in_store hin' d, ?_⟩
    rw [reg_written, hmem, heq, readWord_writeWord_same hwf hin]
  · rw [reg_written, hmem, Memory.readWord_writeWord hwf hin, if_neg fun h => hne (BitVec.eq_of_toNat_eq h)]

/-- Settles O33: the branch of out with a byte and a ready sink. -/
theorem outGivesOneByte : Obligations.OutGivesOneByte := fun s _ hbyte hready =>
  ⟨_, _, exec_out_next.2 (.inr (.inr (.inr ⟨hbyte, hready, rfl⟩))), rfl, s.nextAddr_eq _, lowByte_toNat hbyte, rfl⟩

/-- Settles O34: the two failures of out, and its wait. -/
theorem outChecksTheWordBeforeThePort : Obligations.OutChecksTheWordBeforeThePort := by
  refine fun s a => ⟨fun hword => ?_, fun hbyte herr => (Fails.outPort hbyte herr).failsWith, fun hbyte hbusy => ?_⟩
  · exact ⟨_, (Fails.outWord hword).exec_next, failed_failsWith (.invalidIOWord (s.val a)) s, rfl⟩
  · obtain ⟨t, h, hstall, henv⟩ := (Waits.notReady hbyte hbusy).stalls
    exact ⟨t, h, hstall, by rw [henv]; rfl, by rw [henv]; rfl⟩

/-- Settles O35: the branch of in with a byte that is no carriage return. -/
theorem inStoresTheByte : Obligations.InStoresTheByte := by
  intro s a b hport hb
  have hcr : b ≠ 13 := fun h => hb (h ▸ rfl)
  refine ⟨_, exec_inp_next.2 (.inr (.inr (.inr ⟨b, hcr, hport, rfl⟩))), rfl, s.nextAddr_eq _, ?_, rfl⟩
  rw [reg_written, zext16_toNat]

/-- Settles O36: the two waits of in, and its failure. -/
theorem inDiscardsCarriageReturns : Obligations.InDiscardsCarriageReturns := by
  refine fun s a => ⟨fun hcr => ?_, fun hnone => ?_, fun herr => (Fails.inPort herr).failsWith⟩
  · obtain ⟨t, h, hstall, henv⟩ := (Waits.carriageReturn hcr).stalls
    exact ⟨t, h, hstall, by rw [henv]; rfl⟩
  · obtain ⟨t, h, hstall, henv⟩ := (Waits.noByte hnone).stalls
    exact ⟨t, h, hstall, by rw [henv]; rfl, by rw [henv]; rfl⟩

end

section
/-! PROOFS, 10_state.md sections 7, 10 and 11, and 70_reset_and_hazards.md: the canonical memory, the clock edge, reset, load and host access. -/

namespace Sys2Proof.Machine

/-! ## The canonical memory is determined by its words -/

theorem readCell_past {m : Memory} {lo a : Nat} (hm : Memory.wfFrom lo m = true) (ha : 2 * Config.memWords ≤ a) :
    readCell m a = Memory.unlisted := by
  induction m generalizing lo with
  | nil => rfl
  | cons p m ih =>
    obtain ⟨k, b⟩ := p
    obtain ⟨-, hk, -, hrest⟩ := Memory.wfFrom_cons.1 hm
    rw [readCell, if_neg (by omega)]
    exact ih hrest

/-- R36: the low byte of a word. -/
theorem readWord_low (m : Memory) (a : Nat) : (readWord m a).extractLsb' 0 8 = readCell m (2 * a) :=
  BitVec.extractLsb'_append_eq_right

/-- R36: the high byte of a word. -/
theorem readWord_high (m : Memory) (a : Nat) : (readWord m a).extractLsb' 8 8 = readCell m (2 * a + 1) :=
  BitVec.extractLsb'_append_eq_left

/-- Every byte address is that of the low or of the high byte of a word. -/
theorem readCell_eq_of_readWord_eq {m m' : Memory} {c : Nat} (h : readWord m (c / 2) = readWord m' (c / 2)) :
    readCell m c = readCell m' c := by
  obtain hc | hc : c = 2 * (c / 2) ∨ c = 2 * (c / 2) + 1 := by omega
  · rw [hc, ← readWord_low, ← readWord_low, h]
  · rw [hc, ← readWord_high, ← readWord_high, h]

/-! ## Reset -/

variable {s t : State}

theorem reset_report_consistent : FaultReport.reset.Consistent := ⟨by decide, fun _ => rfl, nofun⟩

/-- R109: the reset pin gives the invariant from any state. -/
theorem afterRst_inv (s : State) : s.afterRst.Inv :=
  ⟨wf_reset, fun cap _ => Nat.zero_le cap, reset_report_consistent⟩

/-! ## Host access -/

theorem State.stackFull_congr (hcap : t.stackCap = s.stackCap) (hst : t.stack = s.stack) : t.stackFull = s.stackFull := by
  rw [State.stackFull, State.stackFull, hcap, hst]

/-- R31: of the host's pins only the stack's reach the stack. -/
theorem hostAccess_stack (p : HostPins) (s : State) :
    (hostAccess p s).stack = (hostStack p.stk s).stack := by
  have hfull : (hostMem p.mem (hostReg p.reg s)).stackFull = s.stackFull := State.stackFull_congr (by simp) (by simp)
  rw [hostAccess, hostStack_stack, hostStack_stack, hfull, hostMem_stack, hostReg_stack]

theorem hostAccess_stackCap (p : HostPins) (s : State) : (hostAccess p s).stackCap = s.stackCap := by simp [hostAccess]

theorem hostAccess_report (p : HostPins) (s : State) : (hostAccess p s).report = s.report := by simp [hostAccess]

theorem hostAccess_mem (p : HostPins) (s : State) : (hostAccess p s).mem = (hostMem p.mem (hostReg p.reg s)).mem :=
  hostStack_mem ..

/-- R31, log 7: the host keeps the stack to its capacity. -/
theorem hostAccess_stackWithinCap (p : HostPins) (h : s.StackWithinCap) : (hostAccess p s).StackWithinCap := by
  intro cap hcap
  rw [hostAccess_stackCap] at hcap
  rw [hostAccess_stack, hostStack_stack]
  split
  · exact h cap hcap
  · split
    · exact h cap hcap
    · next hroom => exact h.room (fun hfull => hroom (State.stackFull_iff.2 hfull)) hcap
  · exact (List.length_tail ▸ Nat.sub_le _ 1).trans (h cap hcap)

theorem hostAccess_inv (p : HostPins) (h : s.Inv) : (hostAccess p s).Inv := by
  refine ⟨?_, hostAccess_stackWithinCap p h.stack, ?_⟩
  · rw [hostAccess_mem]
    exact wf_hostMem (by rw [hostReg_mem]; exact h.mem)
  · rw [hostAccess_report]
    exact h.report

/-! ## The load -/

/-- R110: word `k` of the store after a load is word `k` of the image, or as before past its end. -/
theorem readWord_loaded {bytes : List Byte} {m : Memory} (hm : Memory.wf m = true) (hfit : bytes.length ≤ 65536) (k : Nat) :
    readWord (writeWords m 0 (imageWords bytes)) k = ((imageWords bytes)[k]?).getD (readWord m k) := by
  have hwords : 0 + (imageWords bytes).length ≤ Config.memWords := by
    rw [imageWords_length, Config.memWords]
    omega
  rw [Memory.readWord_writeWords hm hwords]
  by_cases hk : k < (imageWords bytes).length
  · rw [dif_pos ⟨Nat.zero_le k, hk⟩, List.getElem?_eq_getElem hk]
    rfl
  · rw [dif_neg fun h => hk h.2, List.getElem?_eq_none (Nat.le_of_not_lt hk)]
    rfl

end Sys2Proof.Machine

open Sys2Proof Sys2Proof.Machine

/-- Settles O48: the words give all bytes, and the bytes the list. -/
theorem canonicalMemoryIsDeterminedByItsWords : Obligations.CanonicalMemoryIsDeterminedByItsWords := by
  refine fun m m' hm hm' h => Memory.wfFrom_ext hm hm' fun c => ?_
  obtain hc | hc := Nat.lt_or_ge c (2 * Config.memWords)
  · exact readCell_eq_of_readWord_eq (h _ (Nat.div_lt_of_lt_mul hc))
  · rw [readCell_past hm hc, readCell_past hm' hc]

/-- Settles O50: reset, a step and host access each keep the invariant. -/
theorem everyClockEdgeKeepsTheInvariant : Obligations.EveryClockEdgeKeepsTheInvariant := by
  intro c s t hs h
  obtain ⟨-, rfl⟩ | ⟨-, -, hstep⟩ | ⟨-, -, rfl⟩ := cycle_next.1 h
  · exact afterRst_inv s
  · exact step_inv hs hstep
  · exact hostAccess_inv c.host hs

/-- Settles O51: the reset state is the one the reset pin gives from itself. -/
theorem resetMeetsTheInvariant : Obligations.ResetMeetsTheInvariant := afterRst_inv State.reset

/-- Settles O53: the fields of the reset state. -/
theorem resetValuesOfTheCore : Obligations.ResetValuesOfTheCore :=
  ⟨fun r => Vector.getElem_replicate r.isLt, Memory.readWord_nil, rfl, rfl, rfl, rfl, rfl⟩

/-- Settles O54: the reset branch of the clock edge. -/
theorem resetPinResetsTheCoreNotThePorts : Obligations.ResetPinResetsTheCoreNotThePorts := fun _ _ hrst =>
  ⟨_, cycle_next.2 (.inl ⟨hrst, rfl⟩), ⟨rfl, rfl, rfl, rfl, rfl, rfl⟩, rfl, rfl⟩

/-- Settles O56: the words of the image by `imageWords_getElem?`, and none past its end. -/
theorem imageLoadsAsLittleEndianWords : Obligations.ImageLoadsAsLittleEndianWords := by
  intro bytes s t hwf h
  obtain ⟨-, hfit, rfl⟩ := loadImage_ok.1 h
  refine ⟨fun k lo hi hlo hhi => ?_, fun k hk => ?_, rfl⟩
  · rw [State.setMem_mem, readWord_loaded hwf hfit, imageWords_getElem?, hlo, hhi]
    rfl
  · have hpast : (imageWords bytes).length ≤ k := by rw [imageWords_length]; omega
    rw [State.setMem_mem, readWord_loaded hwf hfit, List.getElem?_eq_none hpast]
    rfl

/-- Settles O57: one clause per group of pins. -/
theorem hostAccessWritesWhatItNames : Obligations.HostAccessWritesWhatItNames := by
  refine fun p s hwf => ⟨fun i v hp => ?_, fun a v hp k => ?_, fun v hp hroom => ?_, fun hp => ?_, fun hp => ?_, fun hp => ?_,
    fun hp => ?_, by simp [hostAccess], by simp [hostAccess], hostAccess_report p s⟩
  · rw [hostAccess_reg, hp]
    exact State.reg_setReg_same s i v
  · rw [hostAccess_mem_of_write hp, Memory.readWord_writeWord hwf a.isLt]
  · rw [hostAccess_stack, hostStack_stack, hp]
    exact if_neg fun hfull => hroom (State.stackFull_iff.1 hfull)
  · rw [hostAccess_stack, hp]
    rfl
  · simp [hostAccess, hp, hostReg]
  · simp [hostAccess, hp, hostMem]
  · rw [hostAccess_stack, hp]
    rfl

end

section
/-! PROOFS, 30_encoding.md sections 5 and 9, and 10_state.md section 10: the assembler (R62), the peek (R58) and the byte ports (R28). -/

namespace Sys2Proof.Machine

variable {s t : State} {i : Instr}

/-! ## The assembler -/

/-- R62: each mnemonic is that of its own opcode alone. -/
theorem opcodeOf_mnemonicOf (i : Instr) : opcodeOf (mnemonicOf i) = some i.opcode := by
  have hall : ∀ n < 22, opcodeOf (mnemonics.getD n []) = some n := by decide
  exact hall i.opcode i.opcode_lt

/-- The operands of a list of tokens are those shown, whichever are shown by a label. -/
theorem tokenSrcs_mapIdx {os : List Src} (hwf : ∀ o ∈ os, o.wf = true) (labels : Nat → Option Text) :
    tokenSrcs (os.mapIdx fun k o => operandToken (labels k) o) = some os := by
  induction os generalizing labels with
  | nil => rfl
  | cons o os ih =>
    have htail := ih (fun o' ho' => hwf o' (List.mem_cons_of_mem o ho')) fun k => labels (k + 1)
    rw [List.mapIdx_cons, tokenSrcs, tokenSrc_operandToken _ (hwf o List.mem_cons_self), htail]

/-- R50: a register reference is always well-formed, so that the Sources decide. -/
theorem operands_wf (hwf : i.wf = true) : ∀ o ∈ i.operands, o.wf = true := by
  rw [Instr.operands_eq]
  intro o ho
  obtain hd | hs := List.mem_append.1 ho
  · obtain ⟨d, -, rfl⟩ := Option.map_eq_some_iff.1 (Option.mem_toList.1 hd)
    rfl
  · exact i.wf_iff.1 hwf o hs

theorem assemble_tokens (hwf : i.wf = true) (labels : Nat → Option Text) :
    assemble (mnemonicOf i) (instrTokens labels i) = some i := by
  have hdec := decode_encode hwf 0 []
  rw [List.append_nil, encode] at hdec
  have hlen : i.length = i.operands.length + 1 := by rw [Instr.length_eq, Instr.operands_eq]
  have hnext : (BitVec.ofNat 16 ((0 : Word).toNat + i.length)).toNat = i.operands.length + 1 := by
    have hfour := i.length_le_four
    change (0 + i.length) % 65536 = i.operands.length + 1
    omega
  rw [assemble, opcodeOf_mnemonicOf, instrTokens, tokenSrcs_mapIdx (operands_wf hwf)]
  simp only [hdec, hnext, if_true]

/-! ## The peek -/

/-- R27: the peek shows the decode at pc. -/
theorem peek_eq (s : State) : s.peek = decoderPortsOf (decodeAt s) := by
  rw [State.peek, decoderBlock, decodeAt, Config.maxLen, fetchWords_four]

/-- R58: the outputs for a decode that succeeds. -/
theorem decoderPorts_of_decodeAt_ok {n : Word} (h : decodeAt s = .ok (i, n)) :
    (decoderPortsOf (.ok (i, n))).opcode.toNat = i.opcode ∧ (decoderPortsOf (.ok (i, n))).len.toNat = i.length ∧
      (decoderPortsOf (.ok (i, n))).next.toNat = s.pc.toNat + i.length :=
  ⟨Nat.mod_eq_of_lt (i.opcode_lt.trans (by decide)), Nat.mod_eq_of_lt (Nat.lt_of_le_of_lt i.length_le_four (by decide)),
    (decodeAt_next h).2⟩

/-- R94: the decode failures have the codes 1 to 4. -/
theorem decode_code_range (e : DecodeFailure) : 1 ≤ (Failure.decode e).code.toNat ∧ (Failure.decode e).code.toNat ≤ 4 := by
  cases e <;> simp [Failure.code]

/-! ## The bytes a step moves -/

/-- A step that executes no instruction moves no byte. -/
theorem step_env_of_not_executing (h : step s = .next t) (hn : s.executing = none) : t.env = s.env := by
  obtain ⟨-, rfl⟩ | ⟨-, e, -, rfl⟩ | ⟨hrun, i, n, hdec, -⟩ := step_next.1 h
  · rfl
  · rfl
  · rw [State.executing_eq_some.2 ⟨hrun, n, hdec⟩] at hn
    cases hn

/-- R89: in_take shows the byte a step consumes. -/
theorem step_inTaken (h : step s = .next t) : t.env.inTaken = s.env.inTaken ++ s.inTake.toList := by
  unfold State.inTake
  cases hi : s.executing with
  | none => simp [step_env_of_not_executing h hi]
  | some i =>
    rw [step_of_executing hi] at h
    have hports := exec_ports h
    generalize t.env = e at hports ⊢
    cases hports with
    | untouched _ hin =>
      cases i with
      | inp d => exact absurd rfl (hin d)
      | _ => simp
    | refused ha => simp [ha]
    | offered ha => simp [ha]
    | given ha => simp [ha]
    | sampled hd hport =>
      cases hs : s.env.inNow with
      | byte b => exact absurd hs (hport b)
      | _ => simp [hd]
    | taken hd hport => simp [hd, hport]

/-- R88: out_valid shows the byte a step offers, and the sink takes it when it is ready. -/
theorem step_outGiven (h : step s = .next t) :
    t.env.outGiven = s.env.outGiven ++ if s.env.outNow = .ready then s.outOffer.toList else [] := by
  unfold State.outOffer
  cases hi : s.executing with
  | none => simp [step_env_of_not_executing h hi]
  | some i =>
    rw [step_of_executing hi] at h
    have hports := exec_ports h
    generalize t.env = e at hports ⊢
    cases hports with
    | untouched hout _ =>
      cases i with
      | out a => exact absurd rfl (hout a)
      | _ => simp
    | refused ha hword => simp [ha, ioValid_iff, Nat.not_le.2 hword]
    | offered ha _ hport => simp [hport]
    | given ha hbyte hport => simp [ha, hport, (ioValid_iff _).2 hbyte]
    | sampled hd => simp [hd]
    | taken hd => simp [hd]

/-! ## The bytes of a cycle -/

/-- R28: a cycle without a step leaves the ports' environment alone. -/
theorem cycle_idle_env {c : CycleIn} (h : cycle c s = .next t) (hidle : c.steps = false) : t.env = s.env := by
  obtain ⟨-, rfl⟩ | ⟨hrst, hrun, -⟩ | ⟨-, -, rfl⟩ := cycle_next.1 h
  · rfl
  · exact absurd (CycleIn.steps_iff.2 ⟨hrst, hrun⟩) (by simp [hidle])
  · exact hostAccess_env c.host s

theorem step_of_cycle {c : CycleIn} (h : cycle c s = .next t) (hsteps : c.steps = true) : step s = .next t := by
  obtain ⟨hrst, hrun⟩ := CycleIn.steps_iff.1 hsteps
  rwa [cycle, hrst, hrun] at h

theorem cycle_inTaken {c : CycleIn} (h : cycle c s = .next t) : t.env.inTaken = s.env.inTaken ++ (s.inPort c).toList := by
  cases hsteps : c.steps with
  | true => rw [State.inPort_step hsteps, step_inTaken (step_of_cycle h hsteps)]
  | false => simp [State.inPort_idle hsteps, cycle_idle_env h hsteps]

theorem cycle_outGiven {c : CycleIn} (h : cycle c s = .next t) :
    t.env.outGiven = s.env.outGiven ++ if s.env.outNow = .ready then (s.outPort c).toList else [] := by
  cases hsteps : c.steps with
  | true => rw [State.outPort_step hsteps, step_outGiven (step_of_cycle h hsteps)]
  | false => simp [State.outPort_idle hsteps, cycle_idle_env h hsteps]

theorem CycleIn.not_steps {c : CycleIn} (h : c.runEn = false ∨ c.rst = true) : c.steps = false := by
  unfold CycleIn.steps
  obtain h | h := h <;> simp [h]

end Sys2Proof.Machine

open Sys2Proof Sys2Proof.Machine

/-- Settles O52: the tokens stand for the operands shown, and the assembled words are the encoding. -/
theorem assemblingTheTokensGivesTheInstruction : Obligations.AssemblingTheTokensGivesTheInstruction :=
  fun _ labels hwf => assemble_tokens hwf labels

/-- Settles O58: the peek is the decode at pc, with each output's range. -/
theorem peekShowsTheDecodersAnswer : Obligations.PeekShowsTheDecodersAnswer := by
  intro s
  rw [peek_eq]
  cases hdec : decodeAt s with
  | error e => exact ⟨rfl, nofun, fun _ => ⟨(decode_code_range e).1, (decode_code_range e).2, rfl, rfl, rfl⟩⟩
  | ok r =>
    obtain ⟨i, n⟩ := r
    obtain ⟨hop, hlen, hnext⟩ := decoderPorts_of_decodeAt_ok hdec
    refine ⟨rfl, fun _ => ⟨rfl, ?_, ?_, ?_, ?_⟩, nofun⟩
    · rw [hop]; exact Nat.le_of_lt_succ i.opcode_lt
    · rw [hlen]; exact i.one_le_length
    · rw [hlen]; exact i.length_le_four
    · rw [hlen]; exact hnext

/-- Settles O59: the bytes a step takes and gives. -/
theorem portSignalsAreTheBytesMoved : Obligations.PortSignalsAreTheBytesMoved := by
  refine fun s t h => ⟨step_inTaken h, fun hready => ?_, fun hbusy => ?_⟩
  · rw [step_outGiven h, if_pos hready]
  · rw [step_outGiven h, if_neg hbusy, List.append_nil]

/-- Settles O60: the bytes of a cycle that steps are the step's, and any other cycle is idle. -/
theorem portOutputsAreTheBytesOfTheCycle : Obligations.PortOutputsAreTheBytesOfTheCycle := by
  refine fun c s t h => ⟨cycle_inTaken h, cycle_outGiven h, ?_, fun hidle => ?_⟩
  · rw [cycle_inTaken h, State.corePorts]
    cases s.inPort c <;> simp
  · have hsteps := CycleIn.not_steps hidle
    exact ⟨by rw [State.corePorts, State.inPort_idle hsteps]; rfl, by rw [State.corePorts, State.outPort_idle hsteps]; rfl,
      cycle_idle_env h hsteps⟩

end
